-- ==== Sys2Proof/Word.lean ====
section
/-! DEFINITION. The words of the machine: bytes, 16-bit words and 4-bit indices (spec/00_scope.md R4, R5). -/

namespace Sys2Proof

/-- An 8-bit unsigned value: a register, a memory byte, an immediate `kk` (R5, R21, R50). -/
abbrev Byte := BitVec 8

/-- A 16-bit unsigned value: `I`, `pc`, a stack entry, an instruction word (R24, R25, R29, R70). -/
abbrev Word := BitVec 16

/-- The number of a general register, V0 to VF (R21). -/
abbrev Reg := Fin 16

/-- VF, the register that also receives the flags (R22). -/
abbrev Reg.vf : Reg := 15

end Sys2Proof
end

