-- ==== Sys2Proof/Syntax.lean ====
section
/-! DEFINITION. The instructions: one constructor per row of spec/opcode_table.json, in the table's order (R81).
`x` and `y` are register numbers, `kk` an 8-bit immediate, `nnn` a 12-bit address zero-extended to 16 bits (R72, R73),
`n` a count of sprite rows. That `nnn` and `n` fit their fields is the check of Sys2Proof/WellFormed.lean. -/

namespace Sys2Proof

inductive Instr where
  /-- 0000 `NOP` (R101). -/
  | nop
  /-- 00E0 `CLS` (R161). -/
  | cls
  /-- 00EE `RET` (R102). -/
  | ret
  /-- 1nnn `JP nnn` (R103). -/
  | jp (nnn : Word)
  /-- 2nnn `CALL nnn` (R104). -/
  | call (nnn : Word)
  /-- 3xkk `SE Vx, kk` (R105). -/
  | seImm (x : Reg) (kk : Byte)
  /-- 4xkk `SNE Vx, kk` (R106). -/
  | sneImm (x : Reg) (kk : Byte)
  /-- 5xy0 `SE Vx, Vy` (R107). -/
  | seReg (x y : Reg)
  /-- 6xkk `LD Vx, kk` (R122). -/
  | ldImm (x : Reg) (kk : Byte)
  /-- 7xkk `ADD Vx, kk` (R123). -/
  | addImm (x : Reg) (kk : Byte)
  /-- 8xy0 `LD Vx, Vy` (R124). -/
  | ldReg (x y : Reg)
  /-- 8xy1 `OR Vx, Vy` (R125). -/
  | orReg (x y : Reg)
  /-- 8xy2 `AND Vx, Vy` (R126). -/
  | andReg (x y : Reg)
  /-- 8xy3 `XOR Vx, Vy` (R127). -/
  | xorReg (x y : Reg)
  /-- 8xy4 `ADD Vx, Vy` (R128). -/
  | addReg (x y : Reg)
  /-- 8xy5 `SUB Vx, Vy` (R129). -/
  | subReg (x y : Reg)
  /-- 8xy6 `SHR Vx, Vy` (R130); `y` is encoded and ignored (R80). -/
  | shr (x y : Reg)
  /-- 8xy7 `SUBN Vx, Vy` (R131). -/
  | subnReg (x y : Reg)
  /-- 8xyE `SHL Vx, Vy` (R132); `y` is encoded and ignored (R80). -/
  | shl (x y : Reg)
  /-- 9xy0 `SNE Vx, Vy` (R108). -/
  | sneReg (x y : Reg)
  /-- Annn `LD I, nnn` (R140). -/
  | ldI (nnn : Word)
  /-- Bnnn `JP V0, nnn` (R109). -/
  | jpV0 (nnn : Word)
  /-- Cxkk `RND Vx, kk` (R133). -/
  | rnd (x : Reg) (kk : Byte)
  /-- Dxyn `DRW Vx, Vy, n` (R162). -/
  | drw (x y : Reg) (n : Nat)
  /-- Ex9E `SKP Vx` (R171). -/
  | skp (x : Reg)
  /-- ExA1 `SKNP Vx` (R172). -/
  | sknp (x : Reg)
  /-- Fx07 `LD Vx, DT` (R173). -/
  | ldVxDt (x : Reg)
  /-- Fx0A `LD Vx, K` (R174). -/
  | ldVxK (x : Reg)
  /-- Fx15 `LD DT, Vx` (R175). -/
  | ldDtVx (x : Reg)
  /-- Fx18 `LD ST, Vx` (R176). -/
  | ldStVx (x : Reg)
  /-- Fx1E `ADD I, Vx` (R141). -/
  | addI (x : Reg)
  /-- Fx29 `LD F, Vx` (R142). -/
  | ldF (x : Reg)
  /-- Fx33 `LD B, Vx` (R143). -/
  | ldB (x : Reg)
  /-- Fx55 `LD [I], Vx` (R144). -/
  | storeRegs (x : Reg)
  /-- Fx65 `LD Vx, [I]` (R145). -/
  | loadRegs (x : Reg)
  deriving DecidableEq, Repr

end Sys2Proof
end

