-- ==== Sys2Proof/WellFormed.lean ====
section
/-! DEFINITION. Which instructions the encoding can hold: `nnn` fits its 12 bits and `n` its 4 (R72, R74; log 13).
Register numbers and `kk` fit their fields by their types. -/

namespace Sys2Proof

/-- `nnn` fits the 12-bit field ir[11:0] (R72). -/
def fitsAddress (nnn : Word) : Bool := decide (nnn.toNat < 4096)

/-- `n` fits the 4-bit field ir[3:0] (R72, R73: "a count 0..15"). -/
def fitsHeight (n : Nat) : Bool := decide (n < 16)

/-- Every operand fits the field the encoding gives it (R72, R74). -/
def Instr.wellFormed : Instr → Bool
  | .jp nnn | .call nnn | .ldI nnn | .jpV0 nnn => fitsAddress nnn
  | .drw _ _ n => fitsHeight n
  | .nop | .cls | .ret => true
  | .seImm _ _ | .sneImm _ _ | .ldImm _ _ | .addImm _ _ | .rnd _ _ => true
  | .seReg _ _ | .sneReg _ _ | .ldReg _ _ | .orReg _ _ | .andReg _ _ | .xorReg _ _ => true
  | .addReg _ _ | .subReg _ _ | .shr _ _ | .subnReg _ _ | .shl _ _ => true
  | .skp _ | .sknp _ | .ldVxDt _ | .ldVxK _ | .ldDtVx _ | .ldStVx _ => true
  | .addI _ | .ldF _ | .ldB _ | .storeRegs _ | .loadRegs _ => true

end Sys2Proof
end

