-- ==== Sys2Proof/Decode.lean ====
section
/-! DEFINITION. From bytes to instructions and back (spec/30_encoding.md): the fields, the decoder (total, rejecting by
name), the opcode table's masks, the encoder, and the host's `decodeTableWord`. -/

namespace Sys2Proof

/-- Why a decode refuses. -/
inductive DecodeError where
  /-- Fewer than the two bytes of an instruction (R70). -/
  | truncated
  /-- The word matches no row of the opcode table (R77, R78). -/
  | unknownOpcode (ir : Word)
  deriving DecidableEq, Repr

/-- `ir[hi:lo]`, the unsigned value of bits `hi` down to `lo` (R5, slicing). -/
def slice (ir : Word) (hi lo : Nat) : Nat := ir.toNat / 2 ^ lo % 2 ^ (hi - lo + 1)

/-- `d1`, the major opcode ir[15:12] (R72). -/
def fieldD1 (ir : Word) : Nat := slice ir 15 12

/-- `x`, ir[11:8] (R72). -/
def fieldX (ir : Word) : Reg := Fin.ofNat 16 (slice ir 11 8)

/-- `y`, ir[7:4] (R72). -/
def fieldY (ir : Word) : Reg := Fin.ofNat 16 (slice ir 7 4)

/-- `n`, ir[3:0] (R72). -/
def fieldN (ir : Word) : Nat := slice ir 3 0

/-- `kk`, ir[7:0] (R72). -/
def fieldKk (ir : Word) : Byte := BitVec.ofNat 8 (slice ir 7 0)

/-- `nnn`, ir[11:0], zero-extended to 16 bits (R72, R73). -/
def fieldNnn (ir : Word) : Word := BitVec.ofNat 16 (slice ir 11 0)

/-- The opcode map of R76: the fixed nibbles are required (D21); every other word is unknown (R77, R78). -/
def decode (ir : Word) : Except DecodeError Instr :=
  let x := fieldX ir
  let y := fieldY ir
  match fieldD1 ir with
  | 0x0 =>
    match slice ir 11 0 with
    | 0x000 => .ok .nop
    | 0x0E0 => .ok .cls
    | 0x0EE => .ok .ret
    | _ => .error (.unknownOpcode ir)
  | 0x1 => .ok (.jp (fieldNnn ir))
  | 0x2 => .ok (.call (fieldNnn ir))
  | 0x3 => .ok (.seImm x (fieldKk ir))
  | 0x4 => .ok (.sneImm x (fieldKk ir))
  | 0x5 =>
    match fieldN ir with
    | 0x0 => .ok (.seReg x y)
    | _ => .error (.unknownOpcode ir)
  | 0x6 => .ok (.ldImm x (fieldKk ir))
  | 0x7 => .ok (.addImm x (fieldKk ir))
  | 0x8 =>
    match fieldN ir with
    | 0x0 => .ok (.ldReg x y)
    | 0x1 => .ok (.orReg x y)
    | 0x2 => .ok (.andReg x y)
    | 0x3 => .ok (.xorReg x y)
    | 0x4 => .ok (.addReg x y)
    | 0x5 => .ok (.subReg x y)
    | 0x6 => .ok (.shr x y)
    | 0x7 => .ok (.subnReg x y)
    | 0xE => .ok (.shl x y)
    | _ => .error (.unknownOpcode ir)
  | 0x9 =>
    match fieldN ir with
    | 0x0 => .ok (.sneReg x y)
    | _ => .error (.unknownOpcode ir)
  | 0xA => .ok (.ldI (fieldNnn ir))
  | 0xB => .ok (.jpV0 (fieldNnn ir))
  | 0xC => .ok (.rnd x (fieldKk ir))
  | 0xD => .ok (.drw x y (fieldN ir))
  | 0xE =>
    match slice ir 7 0 with
    | 0x9E => .ok (.skp x)
    | 0xA1 => .ok (.sknp x)
    | _ => .error (.unknownOpcode ir)
  | 0xF =>
    match slice ir 7 0 with
    | 0x07 => .ok (.ldVxDt x)
    | 0x0A => .ok (.ldVxK x)
    | 0x15 => .ok (.ldDtVx x)
    | 0x18 => .ok (.ldStVx x)
    | 0x1E => .ok (.addI x)
    | 0x29 => .ok (.ldF x)
    | 0x33 => .ok (.ldB x)
    | 0x55 => .ok (.storeRegs x)
    | 0x65 => .ok (.loadRegs x)
    | _ => .error (.unknownOpcode ir)
  | _ => .error (.unknownOpcode ir)

/-- `hi ++ lo`: the instruction word of two bytes, the byte at the lower address first (R5, R57, R71). -/
def wordOfBytes (hi lo : Byte) : Word := BitVec.ofNat 16 (hi.toNat * 256 + lo.toNat)

/-- The byte of `ir` at the lower address (R57). -/
def highByte (ir : Word) : Byte := BitVec.ofNat 8 (ir.toNat / 256)

/-- The byte of `ir` at the higher address (R57). -/
def lowByte (ir : Word) : Byte := BitVec.ofNat 8 ir.toNat

/-- One instruction off the front of a list of bytes, with the bytes left over. -/
def decodeBytes : List Byte → Except DecodeError (Instr × List Byte)
  | hi :: lo :: rest =>
    match decode (wordOfBytes hi lo) with
    | .ok i => .ok (i, rest)
    | .error e => .error e
  | [_] => .error .truncated
  | [] => .error .truncated

/-- A row of the opcode table: a word is the row's when `(ir AND mask) = value` (R76). -/
structure OpcodeRow where
  mask : Word
  value : Word
  deriving DecidableEq, Repr

/-- The word's fixed bits are the row's (R76). -/
def OpcodeRow.covers (r : OpcodeRow) (ir : Word) : Bool := (ir &&& r.mask) == r.value

/-- The rows with major opcode 0 to 7, in the table's order. -/
def opcodeRowsLow : List OpcodeRow :=
  [⟨0xFFFF, 0x0000⟩, ⟨0xFFFF, 0x00E0⟩, ⟨0xFFFF, 0x00EE⟩, ⟨0xF000, 0x1000⟩, ⟨0xF000, 0x2000⟩, ⟨0xF000, 0x3000⟩,
   ⟨0xF000, 0x4000⟩, ⟨0xF00F, 0x5000⟩, ⟨0xF000, 0x6000⟩, ⟨0xF000, 0x7000⟩]

/-- The rows with major opcode 8 to 0xD, in the table's order. -/
def opcodeRowsMid : List OpcodeRow :=
  [⟨0xF00F, 0x8000⟩, ⟨0xF00F, 0x8001⟩, ⟨0xF00F, 0x8002⟩, ⟨0xF00F, 0x8003⟩, ⟨0xF00F, 0x8004⟩, ⟨0xF00F, 0x8005⟩,
   ⟨0xF00F, 0x8006⟩, ⟨0xF00F, 0x8007⟩, ⟨0xF00F, 0x800E⟩, ⟨0xF00F, 0x9000⟩, ⟨0xF000, 0xA000⟩, ⟨0xF000, 0xB000⟩,
   ⟨0xF000, 0xC000⟩, ⟨0xF000, 0xD000⟩]

/-- The rows with major opcode 0xE and 0xF, in the table's order. -/
def opcodeRowsHigh : List OpcodeRow :=
  [⟨0xF0FF, 0xE09E⟩, ⟨0xF0FF, 0xE0A1⟩, ⟨0xF0FF, 0xF007⟩, ⟨0xF0FF, 0xF00A⟩, ⟨0xF0FF, 0xF015⟩, ⟨0xF0FF, 0xF018⟩,
   ⟨0xF0FF, 0xF01E⟩, ⟨0xF0FF, 0xF029⟩, ⟨0xF0FF, 0xF033⟩, ⟨0xF0FF, 0xF055⟩, ⟨0xF0FF, 0xF065⟩]

/-- The 35 rows of spec/opcode_table.json, mask and match (R76). -/
def opcodeRows : List OpcodeRow := opcodeRowsLow ++ (opcodeRowsMid ++ opcodeRowsHigh)

/-- Format NNN: `op` in ir[15:12], `nnn` in ir[11:0] (R74). -/
def wordNnn (op : Nat) (nnn : Word) : Word := BitVec.ofNat 16 (op * 4096 + nnn.toNat % 4096)

/-- Format XKK: `op`, `x` in ir[11:8], `kk` in ir[7:0] (R74). -/
def wordXkk (op : Nat) (x : Reg) (kk : Byte) : Word := BitVec.ofNat 16 (op * 4096 + x.val * 256 + kk.toNat)

/-- Format XYN: `op`, `x` in ir[11:8], `y` in ir[7:4], `n` in ir[3:0] (R74). -/
def wordXyn (op : Nat) (x y : Reg) (n : Nat) : Word :=
  BitVec.ofNat 16 (op * 4096 + x.val * 256 + y.val * 16 + n % 16)

/-- The word of a well-formed instruction, from the formats of R74 and the patterns of R81. -/
def encode : Instr → Word
  | .nop => 0x0000
  | .cls => 0x00E0
  | .ret => 0x00EE
  | .jp nnn => wordNnn 0x1 nnn
  | .call nnn => wordNnn 0x2 nnn
  | .seImm x kk => wordXkk 0x3 x kk
  | .sneImm x kk => wordXkk 0x4 x kk
  | .seReg x y => wordXyn 0x5 x y 0x0
  | .ldImm x kk => wordXkk 0x6 x kk
  | .addImm x kk => wordXkk 0x7 x kk
  | .ldReg x y => wordXyn 0x8 x y 0x0
  | .orReg x y => wordXyn 0x8 x y 0x1
  | .andReg x y => wordXyn 0x8 x y 0x2
  | .xorReg x y => wordXyn 0x8 x y 0x3
  | .addReg x y => wordXyn 0x8 x y 0x4
  | .subReg x y => wordXyn 0x8 x y 0x5
  | .shr x y => wordXyn 0x8 x y 0x6
  | .subnReg x y => wordXyn 0x8 x y 0x7
  | .shl x y => wordXyn 0x8 x y 0xE
  | .sneReg x y => wordXyn 0x9 x y 0x0
  | .ldI nnn => wordNnn 0xA nnn
  | .jpV0 nnn => wordNnn 0xB nnn
  | .rnd x kk => wordXkk 0xC x kk
  | .drw x y n => wordXyn 0xD x y n
  | .skp x => wordXkk 0xE x 0x9E
  | .sknp x => wordXkk 0xE x 0xA1
  | .ldVxDt x => wordXkk 0xF x 0x07
  | .ldVxK x => wordXkk 0xF x 0x0A
  | .ldDtVx x => wordXkk 0xF x 0x15
  | .ldStVx x => wordXkk 0xF x 0x18
  | .addI x => wordXkk 0xF x 0x1E
  | .ldF x => wordXkk 0xF x 0x29
  | .ldB x => wordXkk 0xF x 0x33
  | .storeRegs x => wordXkk 0xF x 0x55
  | .loadRegs x => wordXkk 0xF x 0x65

/-- The 16-bit word the host names by the low `nbits` bits of `w`, every bit above them 0. -/
def tableWord (nbits w : Nat) : Word := BitVec.ofNat 16 (w % 2 ^ nbits)

/-- The instruction the decoder reads from the word `w` laid out as the hardware stores it, high byte first (R57). -/
def decodeTableWord (nbits w : Nat) : Option Instr :=
  match decodeBytes [highByte (tableWord nbits w), lowByte (tableWord nbits w)] with
  | .ok (i, _) => some i
  | .error _ => none

end Sys2Proof
end

