-- ==== Sys2Proof/Config.lean ====
section
/-! DEFINITION. What the implementation fixes (spec/00_scope.md R4) and the free value of the model.
The two other open parameters of R4, `FONT` and `RESET_MEM_TAIL`, are arguments of `create` and `resetMachine`
(Sys2Proof/Machine/HostOps.lean); their default bytes stand in Sys2Proof/Machine/Memory.lean. -/

namespace Sys2Proof.Config

/-- `MEM_SIZE`: the addresses are 0x000 to 0xFFF (R50). -/
abbrev memSize : Nat := 4096

/-- `FONT_LEN`: 16 glyphs of 5 bytes, from address 0 (R53, R54). -/
abbrev fontLen : Nat := 80

/-- The bytes 0x050 to 0xFFF, which `RESET_MEM_TAIL` fills at reset (R55). -/
abbrev tailLen : Nat := 4016

/-- `LOAD_ADDR`: where `load()` copies a program (R53, R232). -/
abbrev loadAddr : Nat := 0x200

/-- `STACK_DEPTH`: the entries of the return-address stack (R29). -/
abbrev stackDepth : Nat := 16

/-- FREE VALUE: the byte of the `k`-th `Rand8` draw (R133, R218; log 3).
It has no body, so no proof can see a value of it: what is proved holds for every sequence of draws. -/
opaque rand8 : Nat → BitVec 8

end Sys2Proof.Config
end

