-- ==== Sys2Proof/Machine/State.lean ====
section
/-! DEFINITION. The machine state as plain data (spec/10_state.md R20), the faults (spec/60_exceptions.md R200, R201)
and the state after reset (R38-R45, R55). -/

namespace Sys2Proof.Machine

/-- `mem` as the listed bytes, in rising order of address; what an unlisted address reads as is
`Memory.unlistedByte`, and the canonical form is `Memory.wf` (Sys2Proof/Machine/Memory.lean). -/
abbrev Memory := List Host.Cell

/-- `FB[row][col]`: 32 rows of 64 cells, true is lit; row 0 is the top, column 0 the left (R33). -/
abbrev FrameBuffer := Vector (Vector Bool 64) 32

/-- The faults a step can raise (R200). They are raised inside a meaning, the fetch or the decode, and TAKEN by
`State.takeFault`: the step answers a next state whose `halted` holds the record (R202, log 5). No step answers
`Host.Outcome.fault`. -/
inductive Fault where
  /-- Code 1. Raised by the decode: the word matches no row (R77). Safe: the spec gives exactly this. -/
  | unknownOpcode
  /-- Code 2. Raised by 2nnn with `SP = 16` (R31, R104). Safe: the spec gives exactly this. -/
  | stackOverflow
  /-- Code 3. Raised by 00EE with `SP = 0` (R31, R102). Safe: the spec gives exactly this. -/
  | stackUnderflow
  /-- Code 4. Raised by the fetch, Dxyn, Fx33, Fx55 and Fx65: `addr` is the first address above 0xFFF (R51, R203).
  Safe: where an implementation wraps the address, the model halts (D5, log 12). -/
  | memoryOutOfRange (addr : Nat)
  /-- Code 5. Raised by Ex9E and ExA1 when `V[x] > 0x0F`; `v` is `V[x]` (R170).
  Safe: where an implementation masks the index, the model halts (D6, log 12). -/
  | keyIndexOutOfRange (v : Byte)
  deriving DecidableEq, Repr

/-- The refusals of `exec`. -/
inductive Refusal where
  /-- An instruction that has no meaning yet, by its mnemonic; safe. No arm of `exec` answers it: every instruction
  of the opcode table has its meaning. -/
  | notModelled (mnemonic : String)
  deriving DecidableEq, Repr

/-- What `halted` records: the fault, `pc_insn`, and `ir` or none when the fetch itself faulted (R201).
The tuple's `code` and `info` are functions of the fault: `FaultRecord.code`, `FaultRecord.info`
(Sys2Proof/Machine/Ops.lean). -/
structure FaultRecord where
  fault : Fault
  pcInsn : Word
  ir : Option Word
  deriving DecidableEq, Repr

/-- The machine state: every element of R20, and the model's own `draws`. -/
structure State where
  /-- `mem` (R50). -/
  mem : Memory
  /-- `V[0..15]` (R21). -/
  v : Vector Byte 16
  /-- `I`, the address register (R24). -/
  i : Word
  /-- `pc` (R25). -/
  pc : Word
  /-- `S[0..15]`, the return addresses (R29). -/
  stack : Vector Word 16
  /-- `SP`, the entries in use, 0 to 16 (R30). -/
  sp : Fin 17
  /-- `DT`, the delay timer (R32). -/
  dt : Byte
  /-- `ST`, the sound timer (R32). -/
  st : Byte
  /-- `FB`, the frame buffer (R33). -/
  fb : FrameBuffer
  /-- `K[0..15]`, true is pressed (R34). -/
  keys : Vector Bool 16
  /-- `halted`, none or the fault that stopped interpretation (R35). -/
  halted : Option FaultRecord
  /-- The model's own field: how many `Rand8` draws have been taken; it numbers the free value (log 3). -/
  draws : Nat
  deriving DecidableEq, Repr

/-- Every cell unlit (R43, R161). -/
def FrameBuffer.blank : FrameBuffer := Vector.replicate 32 (Vector.replicate 64 false)

/-- The machine right after reset (R38-R45): memory lists nothing, so it reads as the default `FONT` and a tail of
zeros (R55; logs 1 and 2). `create` takes both as arguments. -/
def State.reset : State where
  mem := []
  v := Vector.replicate 16 0
  i := 0
  pc := 0x200
  stack := Vector.replicate 16 0
  sp := 0
  dt := 0
  st := 0
  fb := FrameBuffer.blank
  keys := Vector.replicate 16 false
  halted := none
  draws := 0

end Sys2Proof.Machine
end

