-- ==== Sys2Proof/Machine/Memory.lean ====
section
/-! DEFINITION. The memory array (spec/20_memory.md): what an unlisted address reads as, reading and writing one byte,
the canonical form. The bounds check of R51 is in Sys2Proof/Machine/Ops.lean. -/

namespace Sys2Proof.Machine

/-- The default `FONT`, glyphs 0 to 7 (R54; log 1). -/
def defaultFontLow : List Byte :=
  [0xF0, 0x90, 0x90, 0x90, 0xF0] ++ [0x20, 0x60, 0x20, 0x20, 0x70] ++ [0xF0, 0x10, 0xF0, 0x80, 0xF0] ++
  [0xF0, 0x10, 0xF0, 0x10, 0xF0] ++ [0x90, 0x90, 0xF0, 0x10, 0x10] ++ [0xF0, 0x80, 0xF0, 0x10, 0xF0] ++
  [0xF0, 0x80, 0xF0, 0x90, 0xF0] ++ [0xF0, 0x10, 0x20, 0x40, 0x40]

/-- The default `FONT`, glyphs 8 to F (R54; log 1). -/
def defaultFontHigh : List Byte :=
  [0xF0, 0x90, 0xF0, 0x90, 0xF0] ++ [0xF0, 0x90, 0xF0, 0x10, 0xF0] ++ [0xF0, 0x90, 0xF0, 0x90, 0x90] ++
  [0xE0, 0x90, 0xE0, 0x90, 0xE0] ++ [0xF0, 0x80, 0x80, 0x80, 0xF0] ++ [0xE0, 0x90, 0x90, 0x90, 0xE0] ++
  [0xF0, 0x80, 0xF0, 0x80, 0xF0] ++ [0xF0, 0x80, 0xF0, 0x80, 0x80]

/-- The default `FONT`: 16 glyphs of 5 bytes, from address 0 (R53, R54; log 1). -/
def defaultFont : List Byte := defaultFontLow ++ defaultFontHigh

namespace Memory

/-- What an unlisted address reads as: the default `FONT` in 0x000-0x04F (R54, R55; log 1) and 0 above it, the
model's choice of `RESET_MEM_TAIL` for `State.reset` (log 2). -/
def unlistedByte (a : Nat) : Byte := defaultFont.getD a 0

/-- The byte at `a`. -/
def read : Memory → Nat → Byte
  | [], a => unlistedByte a
  | (b, w) :: rest, a => if b = a then w else read rest a

/-- `m` with the byte `v` listed at `a`, in its place by address. -/
def listByte : Memory → Nat → Byte → Memory
  | [], a, v => [(a, v)]
  | (b, w) :: rest, a, v =>
    if a < b then (a, v) :: (b, w) :: rest
    else if a = b then (a, v) :: rest
    else (b, w) :: listByte rest a v

/-- `m` with nothing listed at `a`. -/
def unlist (m : Memory) (a : Nat) : Memory := m.filter (fun c => c.1 != a)

/-- `m` with the byte at `a` set to `v`, in canonical form: a byte an unlisted address reads as is not listed. -/
def write (m : Memory) (a : Nat) (v : Byte) : Memory :=
  if v = unlistedByte a then unlist m a else listByte m a v

/-- `m` with the bytes written at `a`, `a + 1`, … in order. -/
def writeSeq : Memory → Nat → List Byte → Memory
  | m, _, [] => m
  | m, a, v :: vs => writeSeq (write m a v) (a + 1) vs

/-- The canonical form: addresses strictly rising and inside 0x000-0xFFF (R50), no entry equal to what an unlisted
address reads as. -/
abbrev wf (m : Memory) : Prop :=
  m.Pairwise (fun c d => c.1 < d.1) ∧ ∀ c ∈ m, c.1 < Config.memSize ∧ c.2 ≠ unlistedByte c.1

end Memory

end Sys2Proof.Machine
end

