-- ==== Sys2Proof/Machine/Ops.lean ====
section
/-! DEFINITION. The named operations of the spec's pseudocode: taking a fault (spec/60_exceptions.md R202), the
register file, memory access with its bounds check (20_memory.md R51), the stack primitives (10_state.md R31), the
skip (40_control_flow.md R100), the fetch (30_encoding.md R71).

A statement that may raise answers `Except Fault`: `.ok` with what it gives, `.error f` for `raise f`. -/

namespace Sys2Proof.Machine

/-- What `exec` and `step` answer. -/
abbrev Result := Host.Outcome State Fault Refusal

/-! ### Faults -/

/-- The cause code of a fault (R200). -/
def Fault.code : Fault → Nat
  | .unknownOpcode => 1
  | .stackOverflow => 2
  | .stackUnderflow => 3
  | .memoryOutOfRange _ => 4
  | .keyIndexOutOfRange _ => 5

/-- The `info` of a fault: the address, the key index, or none (R200). -/
def Fault.info : Fault → Option Nat
  | .unknownOpcode => none
  | .stackOverflow => none
  | .stackUnderflow => none
  | .memoryOutOfRange addr => some addr
  | .keyIndexOutOfRange v => some v.toNat

/-- The `code` of a record (R201). -/
def FaultRecord.code (r : FaultRecord) : Nat := r.fault.code

/-- The `info` of a record (R201). -/
def FaultRecord.info (r : FaultRecord) : Option Nat := r.fault.info

/-- TAKING A FAULT, the one place for it (R202): of the state BEFORE the step, `pc` included, only `halted` changes; it
records the fault, `pc_insn` (the `pc` the step fetches from) and `ir`.
There is no return from a fault beside it: no instruction returns (R205), only create and reset clear `halted` (R204). -/
def State.takeFault (s : State) (f : Fault) (ir : Option Word) : State :=
  { s with halted := some { fault := f, pcInsn := s.pc, ir := ir } }

/-- The end of an instruction whose pseudocode may raise: `s` is the state before the step, `ir` the instruction's
word, `r` where its pseudocode ends (R75, R202). -/
def State.finish (s : State) (ir : Word) (r : Except Fault State) : Result :=
  match r with
  | .ok t => .next t
  | .error f => .next (s.takeFault f (some ir))

/-! ### The register file and the program counter -/

/-- `V[x]` (R21). -/
def State.reg (s : State) (x : Reg) : Byte := s.v[x.val]

/-- `V[x] <- b` (R21). -/
def State.setReg (s : State) (x : Reg) (b : Byte) : State := { s with v := s.v.set x.val b }

/-- `V[k] <- b` for the bytes in order, from register `k` up (R145). -/
def loadSeq : Vector Byte 16 → Nat → List Byte → Vector Byte 16
  | v, _, [] => v
  | v, k, b :: bs => loadSeq (v.setIfInBounds k b) (k + 1) bs

/-- The fetch's advance: `pc <- (pc + 2) mod 65536` (R71). -/
def State.advancePc (s : State) : State := { s with pc := s.pc + 2 }

/-- `Skip()`: `pc <- (pc + 2) mod 65536` (R100). -/
def State.skip (s : State) : State := { s with pc := s.pc + 2 }

/-- `if c: Skip()`. -/
def State.skipIf (s : State) (c : Bool) : State := if c then s.skip else s

/-- The fetch's advance taken back: `pc <- (pc - 2) mod 65536` (R174). -/
def State.rewindPc (s : State) : State := { s with pc := s.pc - 2 }

/-- `pc <- target`. -/
def State.jumpTo (s : State) (target : Word) : State := { s with pc := target }

/-! ### Memory access -/

/-- `MemRead(addr, 1)` on an unbounded address (R51, R52). -/
def State.memRead (s : State) (addr : Nat) : Except Fault Byte :=
  if addr > 0xFFF then .error (.memoryOutOfRange addr) else .ok (s.mem.read addr)

/-- `MemWrite(addr, 1, v)` on an unbounded address (R51, R52). -/
def State.memWrite (s : State) (addr : Nat) (b : Byte) : Except Fault State :=
  if addr > 0xFFF then .error (.memoryOutOfRange addr) else .ok { s with mem := s.mem.write addr b }

/-- `MemRead` at `addr`, `addr + 1`, …, `n` bytes in ascending order (R58, R60): Dxyn, Fx65. -/
def State.memReadSeq (s : State) : Nat → Nat → Except Fault (List Byte)
  | _, 0 => .ok []
  | addr, n + 1 =>
    match s.memRead addr with
    | .error f => .error f
    | .ok b =>
      match s.memReadSeq (addr + 1) n with
      | .error f => .error f
      | .ok bs => .ok (b :: bs)

/-- `MemWrite` at `addr`, `addr + 1`, … in ascending order (R58, R60): Fx33, Fx55. -/
def State.memWriteSeq : State → Nat → List Byte → Except Fault State
  | s, _, [] => .ok s
  | s, addr, b :: bs =>
    match s.memWrite addr b with
    | .error f => .error f
    | .ok t => t.memWriteSeq (addr + 1) bs

/-! ### The return-address stack -/

/-- `Push(v)` (R31). -/
def State.push (s : State) (w : Word) : Except Fault State :=
  if h : s.sp.val < 16 then
    .ok { s with stack := s.stack.set s.sp.val w, sp := ⟨s.sp.val + 1, by omega⟩ }
  else .error .stackOverflow

/-- `Pop()`: the popped value and the state after it; the entry stays in `S[SP]` (R31). -/
def State.pop (s : State) : Except Fault (Word × State) :=
  if h : 0 < s.sp.val then
    .ok (s.stack[s.sp.val - 1], { s with sp := ⟨s.sp.val - 1, by omega⟩ })
  else .error .stackUnderflow

/-! ### Draws -/

/-- `Rand8()`: the byte of the next draw, and the state with the draw taken (R133, R218; log 3). -/
def State.draw (s : State) : Byte × State := (Config.rand8 s.draws, { s with draws := s.draws + 1 })

/-! ### The fetch -/

/-- The word `Fetch()` reads at `pc`, high byte first (R57, R71). The advance of `pc` is `State.advancePc`, made by
the instruction's meaning (log 4). -/
def State.fetch (s : State) : Except Fault Word :=
  match s.memRead s.pc.toNat with
  | .error f => .error f
  | .ok hi =>
    match s.memRead (s.pc.toNat + 1) with
    | .error f => .error f
    | .ok lo => .ok (wordOfBytes hi lo)

/-- `s` ready to fetch the word `w` at `pc`: its bytes in memory, high byte first (R57), `halted` none, and `pc` at
the load address if the fetch could not read two bytes at it (log 11). -/
def State.placeWord (s : State) (w : Word) : State :=
  let pc : Word := if s.pc.toNat + 1 > 0xFFF then 0x200 else s.pc
  { s with pc := pc, halted := none, mem := s.mem.writeSeq pc.toNat [highByte w, lowByte w] }

end Sys2Proof.Machine
end

