-- ==== Sys2Proof/Machine/Flags.lean ====
section
/-! DEFINITION. The values the flag register VF takes (spec/10_state.md R22; 41_alu.md R121, R128-R132). -/

namespace Sys2Proof.Machine

/-- A flag as VF holds it: 1 or 0 (R22). -/
def flagByte (c : Bool) : Byte := if c then 1 else 0

/-- Carry of `a + b`: `a + b >= 256` (R121, R128). -/
def carryFlag (a b : Byte) : Byte := flagByte (decide (a.toNat + b.toNat ≥ 256))

/-- No borrow of `a - b`: `a >= b` (R121, R129, R131). -/
def noBorrowFlag (a b : Byte) : Byte := flagByte (decide (a.toNat ≥ b.toNat))

/-- `a[0]`, the bit a right shift drops (R130). -/
def lowBitFlag (a : Byte) : Byte := BitVec.ofNat 8 (a.toNat % 2)

/-- `a[7]`, the bit a left shift drops (R132). -/
def highBitFlag (a : Byte) : Byte := BitVec.ofNat 8 (a.toNat / 128)

end Sys2Proof.Machine
end

