-- ==== Sys2Proof/Machine/Alu.lean ====
section
/-! DEFINITION. The meanings of spec/41_alu.md. All source registers are read before any is written; where a rule
writes `V[x]` and VF, the writes come in the order the rule gives them, so with x = 0xF the later one remains
(R120; log 8). -/

namespace Sys2Proof.Machine

/-- 6xkk `LD Vx, kk` (R122). -/
def execLdImm (x : Reg) (kk : Byte) (s : State) : Result := .next (s.advancePc.setReg x kk)

/-- 7xkk `ADD Vx, kk`: modulo 256, no flag (R123). -/
def execAddImm (x : Reg) (kk : Byte) (s : State) : Result := .next (s.advancePc.setReg x (s.reg x + kk))

/-- 8xy0 `LD Vx, Vy` (R124). -/
def execLdReg (x y : Reg) (s : State) : Result := .next (s.advancePc.setReg x (s.reg y))

/-- 8xy1 `OR Vx, Vy` (R125). -/
def execOrReg (x y : Reg) (s : State) : Result := .next (s.advancePc.setReg x (s.reg x ||| s.reg y))

/-- 8xy2 `AND Vx, Vy` (R126). -/
def execAndReg (x y : Reg) (s : State) : Result := .next (s.advancePc.setReg x (s.reg x &&& s.reg y))

/-- 8xy3 `XOR Vx, Vy` (R127). -/
def execXorReg (x y : Reg) (s : State) : Result := .next (s.advancePc.setReg x (s.reg x ^^^ s.reg y))

/-- 8xy4 `ADD Vx, Vy`: the sum modulo 256, then VF := carry (R128). -/
def execAddReg (x y : Reg) (s : State) : Result :=
  .next ((s.advancePc.setReg x (s.reg x + s.reg y)).setReg Reg.vf (carryFlag (s.reg x) (s.reg y)))

/-- 8xy5 `SUB Vx, Vy`: the difference modulo 256, then VF := no borrow (R129). -/
def execSubReg (x y : Reg) (s : State) : Result :=
  .next ((s.advancePc.setReg x (s.reg x - s.reg y)).setReg Reg.vf (noBorrowFlag (s.reg x) (s.reg y)))

/-- 8xy7 `SUBN Vx, Vy`: `V[y] - V[x]` modulo 256, then VF := no borrow (R131). -/
def execSubnReg (x y : Reg) (s : State) : Result :=
  .next ((s.advancePc.setReg x (s.reg y - s.reg x)).setReg Reg.vf (noBorrowFlag (s.reg y) (s.reg x)))

/-- `V[x] <- V[x] >> 1`, the register's current value, 0 into bit 7 (R130). -/
def State.shiftRight (s : State) (x : Reg) : State := s.setReg x (BitVec.ofNat 8 ((s.reg x).toNat / 2))

/-- `V[x] <- (V[x] * 2) mod 256`, the register's current value, 0 into bit 0 (R132). -/
def State.shiftLeft (s : State) (x : Reg) : State := s.setReg x (BitVec.ofNat 8 ((s.reg x).toNat * 2))

/-- 8xy6 `SHR Vx, Vy`: VF := bit 0 of `V[x]`, then `V[x]` is shifted in place; `y` is ignored (R80, R130). -/
def execShr (x _y : Reg) (s : State) : Result :=
  .next ((s.advancePc.setReg Reg.vf (lowBitFlag (s.reg x))).shiftRight x)

/-- 8xyE `SHL Vx, Vy`: VF := bit 7 of `V[x]`, then `V[x]` is shifted in place; `y` is ignored (R80, R132). -/
def execShl (x _y : Reg) (s : State) : Result :=
  .next ((s.advancePc.setReg Reg.vf (highBitFlag (s.reg x))).shiftLeft x)

/-- Cxkk `RND Vx, kk`: `kk AND Rand8()`, one fresh draw (R133; log 3). -/
def execRnd (x : Reg) (kk : Byte) (s : State) : Result :=
  .next (s.advancePc.draw.2.setReg x (kk &&& s.advancePc.draw.1))

end Sys2Proof.Machine
end

