-- ==== Sys2Proof/Machine/Operands.lean ====
section
/-! DEFINITION. The operand forms beyond a plain register or immediate: the key index (spec/44_timers_keys.md R170),
the lowest pressed key (R174), the glyph address (42_index_memory.md R142), the decimal digits (R143), the registers
`V[0..x]` (R144). -/

namespace Sys2Proof.Machine

/-- `KeyAt(v)`: the key numbered `v`, or a fault when there is none (R170). -/
def State.keyAt (s : State) (b : Byte) : Except Fault Bool :=
  if h : b.toNat < 16 then .ok s.keys[b.toNat] else .error (.keyIndexOutOfRange b)

/-- `min { k : K[k] = true }`, or none when no key is pressed (R174). -/
def State.lowestKey (s : State) : Option Reg := (List.finRange 16).find? (fun k => s.keys[k.val])

/-- A key's number as a register value (R174). -/
def keyByte (k : Reg) : Byte := BitVec.ofNat 8 k.val

/-- `a * 5`, the address of glyph `a`; `a` is not masked (R142). -/
def glyphAddress (a : Byte) : Word := BitVec.ofNat 16 (a.toNat * 5)

/-- `V[0] + nnn`, modulo 65536 (R109). -/
def indexedTarget (base : Byte) (nnn : Word) : Word := BitVec.ofNat 16 (base.toNat + nnn.toNat)

/-- `(I + a) mod 65536` (R141). -/
def advancedIndex (i : Word) (a : Byte) : Word := BitVec.ofNat 16 (i.toNat + a.toNat)

/-- The hundreds, tens and ones digit of `a` (R143). -/
def decimalDigits (a : Byte) : List Byte :=
  [BitVec.ofNat 8 (a.toNat / 100), BitVec.ofNat 8 (a.toNat / 10 % 10), BitVec.ofNat 8 (a.toNat % 10)]

/-- `V[0], …, V[x]` (R144). -/
def State.regsUpTo (s : State) (x : Reg) : List Byte := s.v.toList.take (x.val + 1)

end Sys2Proof.Machine
end

