-- ==== Sys2Proof/Machine/ControlFlow.lean ====
section
/-! DEFINITION. The meanings of spec/40_control_flow.md: no-op, jumps, call and return, skips.
`s` is the state before the step: `s.pc` is `pc_insn`, and `s.advancePc` is the state the fetch leaves (R25, R71; log 4). -/

namespace Sys2Proof.Machine

/-- 0000 `NOP`: nothing beyond the fetch (R101). -/
def execNop (s : State) : Result := .next s.advancePc

/-- 00EE `RET`: `pc <- Pop()` (R102). -/
def execRet (s : State) : Result :=
  s.finish (encode .ret) <|
    match s.advancePc.pop with
    | .error f => .error f
    | .ok (target, t) => .ok (t.jumpTo target)

/-- 1nnn `JP nnn` (R103). -/
def execJp (nnn : Word) (s : State) : Result := .next (s.advancePc.jumpTo nnn)

/-- 2nnn `CALL nnn`: `Push(pc)`, the advanced `pc`, then `pc <- nnn` (R104). -/
def execCall (nnn : Word) (s : State) : Result :=
  s.finish (encode (.call nnn)) <|
    match s.advancePc.push s.advancePc.pc with
    | .error f => .error f
    | .ok t => .ok (t.jumpTo nnn)

/-- 3xkk `SE Vx, kk` (R105). -/
def execSeImm (x : Reg) (kk : Byte) (s : State) : Result := .next (s.advancePc.skipIf (s.reg x == kk))

/-- 4xkk `SNE Vx, kk` (R106). -/
def execSneImm (x : Reg) (kk : Byte) (s : State) : Result := .next (s.advancePc.skipIf (s.reg x != kk))

/-- 5xy0 `SE Vx, Vy` (R107). -/
def execSeReg (x y : Reg) (s : State) : Result := .next (s.advancePc.skipIf (s.reg x == s.reg y))

/-- 9xy0 `SNE Vx, Vy` (R108). -/
def execSneReg (x y : Reg) (s : State) : Result := .next (s.advancePc.skipIf (s.reg x != s.reg y))

/-- Bnnn `JP V0, nnn`: `pc <- V[0] + nnn`, not masked to 12 bits (R109). -/
def execJpV0 (nnn : Word) (s : State) : Result := .next (s.advancePc.jumpTo (indexedTarget (s.reg 0) nnn))

end Sys2Proof.Machine
end

