-- ==== Sys2Proof/Machine/Display.lean ====
section
/-! DEFINITION. The frame buffer and the meanings of spec/43_display.md: clear, and the XOR-blit with its collision
flag. -/

namespace Sys2Proof.Machine

/-- `FB[row][col]` (R33). -/
def FrameBuffer.cell (fb : FrameBuffer) (row : Fin 32) (col : Fin 64) : Bool := fb[row.val][col.val]

/-- `FB[row][col] <- NOT FB[row][col]` (R162). -/
def FrameBuffer.toggle (fb : FrameBuffer) (row : Fin 32) (col : Fin 64) : FrameBuffer :=
  fb.set row.val (fb[row.val].set col.val (!fb[row.val][col.val]))

/-- A draw in progress: the frame buffer and `collision`. -/
structure Blit where
  fb : FrameBuffer
  collision : Bool
  deriving DecidableEq, Repr

/-- One set pixel: `if FB[row][col] = true: collision <- 1`, then the toggle (R162). -/
def Blit.pixel (d : Blit) (row : Fin 32) (col : Fin 64) : Blit where
  fb := d.fb.toggle row col
  collision := d.collision || d.fb.cell row col

/-- `byte[7 - c]`: bit 7 is the leftmost pixel (R160; log 7). -/
def spriteBit (b : Byte) (c : Nat) : Bool := b.getLsbD (7 - c)

/-- `n mod 32`, a row of the frame buffer (R160). -/
def wrapRow (n : Nat) : Fin 32 := ⟨n % 32, Nat.mod_lt _ (by decide)⟩

/-- `n mod 64`, a column of the frame buffer (R160). -/
def wrapCol (n : Nat) : Fin 64 := ⟨n % 64, Nat.mod_lt _ (by decide)⟩

/-- The columns of a sprite row with offsets `c` in the list, drawn at row `row mod 32` and column `(cx + c) mod 64`
(R160, R162). -/
def Blit.columns (d : Blit) (b : Byte) (row cx : Nat) : List Nat → Blit
  | [] => d
  | c :: cs =>
    let d' := if spriteBit b c then d.pixel (wrapRow row) (wrapCol (cx + c)) else d
    d'.columns b row cx cs

/-- The rows of a sprite, the first at row `row`, each with its column offsets 0 to 7 (R160, R162). -/
def Blit.rows (d : Blit) (row cx : Nat) : List Byte → Blit
  | [] => d
  | b :: bs => (d.columns b row cx (List.range 8)).rows (row + 1) cx bs

/-- 00E0 `CLS`: every cell unlit (R161). -/
def execCls (s : State) : Result := .next { s.advancePc with fb := FrameBuffer.blank }

/-- Dxyn `DRW Vx, Vy, n`: the sprite of `n` bytes at `I`, at column `V[x]` and row `V[y]`, then VF := collision
(R162, R163). The bytes are read before the first pixel is toggled, which no one can tell apart from reading each as
its row is drawn, since a fault discards the step (log 6). -/
def execDrw (x y : Reg) (n : Nat) (s : State) : Result :=
  s.finish (encode (.drw x y n)) <|
    match s.memReadSeq s.i.toNat n with
    | .error f => .error f
    | .ok sprite =>
      let d := Blit.rows { fb := s.fb, collision := false } (s.reg y).toNat (s.reg x).toNat sprite
      .ok (State.setReg { s.advancePc with fb := d.fb } Reg.vf (flagByte d.collision))

end Sys2Proof.Machine
end

