-- ==== Sys2Proof/Machine/IndexMemory.lean ====
section
/-! DEFINITION. The meanings of spec/42_index_memory.md: the address register and the memory transfers. Only Annn, Fx1E
and Fx29 change `I` (R146). -/

namespace Sys2Proof.Machine

/-- `I <- w`. -/
def State.setIndex (s : State) (w : Word) : State := { s with i := w }

/-- Annn `LD I, nnn` (R140). -/
def execLdI (nnn : Word) (s : State) : Result := .next (s.advancePc.setIndex nnn)

/-- Fx1E `ADD I, Vx`: modulo 65536, no flag (R141). -/
def execAddI (x : Reg) (s : State) : Result := .next (s.advancePc.setIndex (advancedIndex s.i (s.reg x)))

/-- Fx29 `LD F, Vx`: `I <- V[x] * 5`, `V[x]` not masked (R142). -/
def execLdF (x : Reg) (s : State) : Result := .next (s.advancePc.setIndex (glyphAddress (s.reg x)))

/-- Fx33 `LD B, Vx`: the three decimal digits at `I`, `I + 1`, `I + 2` (R143). -/
def execLdB (x : Reg) (s : State) : Result :=
  s.finish (encode (.ldB x)) (s.advancePc.memWriteSeq s.i.toNat (decimalDigits (s.reg x)))

/-- Fx55 `LD [I], Vx`: `V[0..x]` at `I + 0` to `I + x` (R144). -/
def execStoreRegs (x : Reg) (s : State) : Result :=
  s.finish (encode (.storeRegs x)) (s.advancePc.memWriteSeq s.i.toNat (s.regsUpTo x))

/-- Fx65 `LD Vx, [I]`: `V[0..x]` from `I + 0` to `I + x` (R145). -/
def execLoadRegs (x : Reg) (s : State) : Result :=
  s.finish (encode (.loadRegs x)) <|
    match s.memReadSeq s.i.toNat (x.val + 1) with
    | .error f => .error f
    | .ok bs => .ok { s.advancePc with v := loadSeq s.v 0 bs }

end Sys2Proof.Machine
end

