-- ==== Sys2Proof/Machine/KeysTimers.lean ====
section
/-! DEFINITION. The meanings of spec/44_timers_keys.md: key skips, key wait, timer access. -/

namespace Sys2Proof.Machine

/-- Ex9E `SKP Vx` (R171). -/
def execSkp (x : Reg) (s : State) : Result :=
  s.finish (encode (.skp x)) <|
    match s.keyAt (s.reg x) with
    | .error f => .error f
    | .ok pressed => .ok (s.advancePc.skipIf pressed)

/-- ExA1 `SKNP Vx` (R172). -/
def execSknp (x : Reg) (s : State) : Result :=
  s.finish (encode (.sknp x)) <|
    match s.keyAt (s.reg x) with
    | .error f => .error f
    | .ok pressed => .ok (s.advancePc.skipIf (!pressed))

/-- Fx07 `LD Vx, DT` (R173). -/
def execLdVxDt (x : Reg) (s : State) : Result := .next (s.advancePc.setReg x s.dt)

/-- Fx0A `LD Vx, K`: rewind `pc` while no key is pressed, else the lowest pressed key (R174). -/
def execLdVxK (x : Reg) (s : State) : Result :=
  match s.lowestKey with
  | none => .next s.advancePc.rewindPc
  | some k => .next (s.advancePc.setReg x (keyByte k))

/-- Fx15 `LD DT, Vx` (R175). -/
def execLdDtVx (x : Reg) (s : State) : Result := .next { s.advancePc with dt := s.reg x }

/-- Fx18 `LD ST, Vx` (R176). -/
def execLdStVx (x : Reg) (s : State) : Result := .next { s.advancePc with st := s.reg x }

end Sys2Proof.Machine
end

