-- ==== Sys2Proof/Machine/Step.lean ====
section
/-! DEFINITION. The step cycle (spec/30_encoding.md R75) and how the host places a word under it. -/

namespace Sys2Proof.Machine

/-- `step()` (R75, R211): a halted core does nothing (R204); else fetch, decode, execute, a fault of the fetch or the
decode being taken as R202 says, with no `ir` when the fetch itself faulted (R201). -/
def step (s : State) : Host.Outcome State Fault Refusal :=
  match s.halted with
  | some _ => .next s
  | none =>
    match s.fetch with
    | .error f => .next (s.takeFault f none)
    | .ok ir =>
      match decode ir with
      | .error _ => .next (s.takeFault .unknownOpcode (some ir))
      | .ok i => exec i s

/-- `s` with the instruction word `w` where the next step fetches (log 11). -/
def State.withFetchWord (s : State) (nbits w : Nat) : State := s.placeWord (tableWord nbits w)

end Sys2Proof.Machine
end

