-- ==== Sys2Proof/Machine/HostOps.lean ====
section
/-! DEFINITION. The host's operations (spec/60_exceptions.md R210-R218, 70_reset_and_hazards.md R230-R233), each atomic
and applied between steps (R62, R238; log 10). -/

namespace Sys2Proof.Machine

/-- What `step()` returns (R75, R211). -/
inductive StepResult where
  /-- The instruction completed. -/
  | ok
  /-- This step raised the fault. -/
  | fault (r : FaultRecord)
  /-- The core was already halted with it. -/
  | halted (r : FaultRecord)
  deriving DecidableEq, Repr

/-- What `step()` returns when it takes `s` to `t` (R211). -/
def stepResult (s t : State) : StepResult :=
  match s.halted with
  | some r => .halted r
  | none =>
    match t.halted with
    | some r => .fault r
    | none => .ok

/-- `create()`: the reset state with this `FONT` and this `RESET_MEM_TAIL` (R55, R230). -/
def create (font : Vector Byte 80) (tail : Vector Byte 4016) : State :=
  { State.reset with mem := Memory.writeSeq [] 0 (font.toList ++ tail.toList) }

/-- `reset()`: the configuration of `create()` in place (R231). `draws` goes on counting, so that a draw after a reset
is a fresh one (log 3). -/
def State.resetMachine (s : State) (font : Vector Byte 80) (tail : Vector Byte 4016) : State :=
  { create font tail with draws := s.draws }

/-- The precondition of `load(rom)`: it fits between 0x200 and 0xFFF (R232). -/
def loadFits (rom : List Byte) : Bool := decide (Config.loadAddr + rom.length ≤ Config.memSize)

/-- `load(rom)`: the bytes at 0x200 and up, or nothing if they do not fit (R232, R233). -/
def State.load (s : State) (rom : List Byte) : State :=
  if loadFits rom then { s with mem := s.mem.writeSeq Config.loadAddr rom } else s

/-- `if t > 0: t <- t - 1` (R212). -/
def countDown (t : Byte) : Byte := if t = 0 then 0 else t - 1

/-- The state after `tick_timers()` (R212). -/
def State.tickTimers (s : State) : State := { s with dt := countDown s.dt, st := countDown s.st }

/-- What `tick_timers()` returns: the tone edge, `ST = 1` before the tick (R212, R213). -/
def State.toneEdge (s : State) : Bool := s.st == 1

/-- `K[k] <- b` for k in 0x0-0xF; another `k` changes nothing (R214). -/
def State.writeKey (s : State) (k : Nat) (b : Bool) : State := { s with keys := s.keys.setIfInBounds k b }

/-- The operations the host invokes on a machine (R210). `create()` makes the machine and is not among them. -/
inductive HostOp where
  /-- `reset()`; the bytes it leaves at 0x000-0x04F and 0x050-0xFFF are the open parameters (R55, R231). -/
  | reset (font : Vector Byte 80) (tail : Vector Byte 4016)
  /-- `load(rom)` (R232). -/
  | load (rom : List Byte)
  /-- `step()` (R211). -/
  | step
  /-- `tick_timers()` (R212). -/
  | tickTimers
  /-- `set_key(k)` (R214). -/
  | setKey (k : Nat)
  /-- `clear_key(k)` (R214). -/
  | clearKey (k : Nat)
  /-- `frame_buffer()` (R215). -/
  | frameBuffer
  /-- `status()` (R216). -/
  | status
  deriving DecidableEq, Repr

/-- What an operation returns to the host (R210). -/
inductive HostReply where
  /-- Nothing, or `Ok`. -/
  | done
  /-- `LoadTooLarge(len)` (R232). -/
  | loadTooLarge (len : Nat)
  /-- A key index outside 0x0-0xF: refused by the interface (R214). -/
  | keyRefused
  /-- The result of `step()` (R211). -/
  | stepped (r : StepResult)
  /-- The tone edge (R213). -/
  | tone (edge : Bool)
  /-- The snapshot of the frame buffer (R215). -/
  | frame (fb : FrameBuffer)
  /-- `halted` (R216). -/
  | status (halted : Option FaultRecord)
  deriving DecidableEq, Repr

/-- What `set_key(k)` and `clear_key(k)` return (R214). -/
def keyReply (k : Nat) : HostReply := if k < 16 then .done else .keyRefused

/-- What `load(rom)` returns (R232). -/
def loadReply (rom : List Byte) : HostReply := if loadFits rom then .done else .loadTooLarge rom.length

/-- One operation: the state after it, and what it returns (R210). -/
def hostApply (op : HostOp) (s : State) : Host.Outcome (State × HostReply) Fault Refusal :=
  match op with
  | .reset font tail => .next (s.resetMachine font tail, .done)
  | .load rom => .next (s.load rom, loadReply rom)
  | .step =>
    match step s with
    | .next t => .next (t, .stepped (stepResult s t))
    | .fault f => .fault f
    | .refused r => .refused r
  | .tickTimers => .next (s.tickTimers, .tone s.toneEdge)
  | .setKey k => .next (s.writeKey k true, keyReply k)
  | .clearKey k => .next (s.writeKey k false, keyReply k)
  | .frameBuffer => .next (s, .frame s.fb)
  | .status => .next (s, .status s.halted)

/-- A sequence of operations, in the order the host invokes them (R217). -/
def hostRun : List HostOp → State → Result
  | [], s => .next s
  | op :: ops, s =>
    match hostApply op s with
    | .next (t, _) => hostRun ops t
    | .fault f => .fault f
    | .refused r => .refused r

end Sys2Proof.Machine
end

