-- ==== Sys2Proof/Safety.lean ====
section
/-! DEFINITION. The terms claims use: what an instruction keeps, when a step faults, the cells a sprite covers, the
invariants, and runs. -/

namespace Sys2Proof.Machine

/-! ### Frames: what is the same in `t` as in `s` -/

/-- Every register outside `dests`. -/
abbrev KeepsRegsBut (dests : List Reg) (s t : State) : Prop := ∀ r : Reg, r ∉ dests → t.reg r = s.reg r

/-- Every byte of memory. -/
abbrev KeepsMemory (s t : State) : Prop := ∀ a : Nat, t.mem.read a = s.mem.read a

/-- Every byte of memory outside the `n` bytes at `base`. -/
abbrev KeepsMemoryBut (base n : Nat) (s t : State) : Prop :=
  ∀ a : Nat, ¬(base ≤ a ∧ a < base + n) → t.mem.read a = s.mem.read a

/-- The stack and its pointer. -/
abbrev KeepsStack (s t : State) : Prop := t.stack = s.stack ∧ t.sp = s.sp

/-- Both timers. -/
abbrev KeepsTimers (s t : State) : Prop := t.dt = s.dt ∧ t.st = s.st

/-- The keys, the fault record and the count of draws. -/
abbrev KeepsControl (s t : State) : Prop := t.keys = s.keys ∧ t.halted = s.halted ∧ t.draws = s.draws

/-- Everything but the registers, `I` and `pc`. -/
abbrev KeepsBeyondRegs (s t : State) : Prop :=
  KeepsMemory s t ∧ KeepsStack s t ∧ KeepsTimers s t ∧ t.fb = s.fb ∧ KeepsControl s t

/-- Everything but `pc` and the registers in `dests`. -/
abbrev ChangesOnlyRegs (dests : List Reg) (s t : State) : Prop :=
  KeepsRegsBut dests s t ∧ t.i = s.i ∧ KeepsBeyondRegs s t

/-- Everything but `pc`. -/
abbrev ChangesOnlyPc (s t : State) : Prop := ChangesOnlyRegs [] s t

/-- Everything but `pc` and `I`. -/
abbrev ChangesOnlyIndex (s t : State) : Prop := KeepsRegsBut [] s t ∧ KeepsBeyondRegs s t

/-- Everything but `pc`, the stack and its pointer. -/
abbrev ChangesOnlyStack (s t : State) : Prop :=
  KeepsRegsBut [] s t ∧ t.i = s.i ∧ KeepsMemory s t ∧ KeepsTimers s t ∧ t.fb = s.fb ∧ KeepsControl s t

/-- Everything but `pc` and the `n` bytes of memory at `base`. -/
abbrev ChangesOnlyMemory (base n : Nat) (s t : State) : Prop :=
  KeepsRegsBut [] s t ∧ t.i = s.i ∧ KeepsMemoryBut base n s t ∧ KeepsStack s t ∧ KeepsTimers s t ∧ t.fb = s.fb ∧
    KeepsControl s t

/-- Everything but `pc`, the frame buffer and the registers in `dests`. -/
abbrev ChangesOnlyScreen (dests : List Reg) (s t : State) : Prop :=
  KeepsRegsBut dests s t ∧ t.i = s.i ∧ KeepsMemory s t ∧ KeepsStack s t ∧ KeepsTimers s t ∧ KeepsControl s t

/-- The registers an instruction may write: its destination, VF for the flag writers (R22), `V[0..x]` for Fx65. -/
def writesReg (i : Instr) (r : Reg) : Bool :=
  match i with
  | .ldImm x _ | .addImm x _ | .rnd x _ => r == x
  | .ldReg x _ | .orReg x _ | .andReg x _ | .xorReg x _ => r == x
  | .addReg x _ | .subReg x _ | .shr x _ | .subnReg x _ | .shl x _ => r == x || r == Reg.vf
  | .ldVxDt x | .ldVxK x => r == x
  | .drw _ _ _ => r == Reg.vf
  | .loadRegs x => decide (r ≤ x)
  | .nop | .cls | .ret | .jp _ | .call _ | .jpV0 _ => false
  | .seImm _ _ | .sneImm _ _ | .seReg _ _ | .sneReg _ _ | .skp _ | .sknp _ => false
  | .ldI _ | .addI _ | .ldF _ | .ldB _ | .storeRegs _ | .ldDtVx _ | .ldStVx _ => false

/-- The instructions that write VF as a flag (R22). -/
def writesFlag (i : Instr) : Bool :=
  match i with
  | .addReg _ _ | .subReg _ _ | .subnReg _ _ | .shr _ _ | .shl _ _ | .drw _ _ _ => true
  | .nop | .cls | .ret | .jp _ | .call _ | .jpV0 _ => false
  | .seImm _ _ | .sneImm _ _ | .seReg _ _ | .sneReg _ _ | .skp _ | .sknp _ => false
  | .ldImm _ _ | .addImm _ _ | .rnd _ _ | .ldReg _ _ | .orReg _ _ | .andReg _ _ | .xorReg _ _ => false
  | .ldVxDt _ | .ldVxK _ | .ldDtVx _ | .ldStVx _ => false
  | .ldI _ | .addI _ | .ldF _ | .ldB _ | .storeRegs _ | .loadRegs _ => false

/-- The instructions that skip (R100). -/
def skips (i : Instr) : Bool :=
  match i with
  | .seImm _ _ | .sneImm _ _ | .seReg _ _ | .sneReg _ _ | .skp _ | .sknp _ => true
  | .nop | .cls | .ret | .jp _ | .call _ | .jpV0 _ => false
  | .ldImm _ _ | .addImm _ _ | .rnd _ _ | .ldReg _ _ | .orReg _ _ | .andReg _ _ | .xorReg _ _ => false
  | .addReg _ _ | .subReg _ _ | .subnReg _ _ | .shr _ _ | .shl _ _ | .drw _ _ _ => false
  | .ldVxDt _ | .ldVxK _ | .ldDtVx _ | .ldStVx _ => false
  | .ldI _ | .addI _ | .ldF _ | .ldB _ | .storeRegs _ | .loadRegs _ => false

/-- The instructions that set `pc` beyond the fetch's advance and are no skips (R26). -/
def setsPc (i : Instr) : Bool :=
  match i with
  | .ret | .jp _ | .call _ | .jpV0 _ | .ldVxK _ => true
  | .nop | .cls => false
  | .seImm _ _ | .sneImm _ _ | .seReg _ _ | .sneReg _ _ | .skp _ | .sknp _ => false
  | .ldImm _ _ | .addImm _ _ | .rnd _ _ | .ldReg _ _ | .orReg _ _ | .andReg _ _ | .xorReg _ _ => false
  | .addReg _ _ | .subReg _ _ | .subnReg _ _ | .shr _ _ | .shl _ _ | .drw _ _ _ => false
  | .ldVxDt _ | .ldDtVx _ | .ldStVx _ => false
  | .ldI _ | .addI _ | .ldF _ | .ldB _ | .storeRegs _ | .loadRegs _ => false

/-! ### Faults -/

/-- The core runs instructions: no fault has stopped it (R35, R204). -/
abbrev State.Running (s : State) : Prop := s.halted = none

/-- The fault of accessing `n` bytes upward from `base`: the first address above 0xFFF (R51, R203). -/
def accessFault (base n : Nat) : Option Fault :=
  if n ≠ 0 ∧ base + n > 0x1000 then some (.memoryOutOfRange (max base 0x1000)) else none

/-- The fault a step raises at instruction `i` in state `s`, from the conditions of R200. -/
def faultOf (i : Instr) (s : State) : Option Fault :=
  match i with
  | .ret => if s.sp.val = 0 then some .stackUnderflow else none
  | .call _ => if s.sp.val = 16 then some .stackOverflow else none
  | .drw _ _ n => accessFault s.i.toNat n
  | .ldB _ => accessFault s.i.toNat 3
  | .storeRegs x | .loadRegs x => accessFault s.i.toNat (x.val + 1)
  | .skp x | .sknp x => if (s.reg x).toNat > 0x0F then some (.keyIndexOutOfRange (s.reg x)) else none
  | .nop | .cls | .jp _ | .jpV0 _ | .seImm _ _ | .sneImm _ _ | .seReg _ _ | .sneReg _ _ => none
  | .ldImm _ _ | .addImm _ _ | .ldReg _ _ | .orReg _ _ | .andReg _ _ | .xorReg _ _ | .rnd _ _ => none
  | .addReg _ _ | .subReg _ _ | .shr _ _ | .subnReg _ _ | .shl _ _ => none
  | .ldI _ | .addI _ | .ldF _ | .ldVxDt _ | .ldVxK _ | .ldDtVx _ | .ldStVx _ => none

/-- The state after fault `f` with the word `ir`: of the state before the step only `halted` changes (R201, R202). -/
abbrev haltedWith (f : Fault) (ir : Option Word) (s : State) : State :=
  { s with halted := some { fault := f, pcInsn := s.pc, ir := ir } }

/-- The state after fault `f` at the instruction `i`. -/
abbrev haltedBy (f : Fault) (i : Instr) (s : State) : State := haltedWith f (some (encode i)) s

/-! ### Reset -/

/-- What R38 and R40 to R44 say of a state after create or reset. -/
abbrev ResetRegisters (u : State) : Prop :=
  (∀ r : Reg, u.reg r = 0) ∧ u.pc = 0x200 ∧ u.sp.val = 0 ∧ (∀ j : Fin 16, u.stack[j.val] = 0) ∧ u.dt = 0 ∧ u.st = 0 ∧
    (∀ (row : Fin 32) (col : Fin 64), u.fb.cell row col = false) ∧ ∀ k : Fin 16, u.keys[k.val] = false

/-! ### Sprites -/

/-- The sprite of `n` bytes at `base` in memory, drawn with its origin at column `cx` and row `cy`, has a 1 bit for
the cell (`row`, `col`) (R160). -/
abbrev SpriteCovers (m : Memory) (base n cx cy : Nat) (row : Fin 32) (col : Fin 64) : Prop :=
  ∃ r, r < n ∧ ∃ c, c < 8 ∧
    (m.read (base + r)).getLsbD (7 - c) = true ∧ (cy + r) % 32 = row.val ∧ (cx + c) % 64 = col.val

/-! ### Fetching -/

/-- The word of the two bytes at `pc`, the byte at the lower address high (R57). -/
def State.wordAtPc (s : State) : Word := wordOfBytes (s.mem.read s.pc.toNat) (s.mem.read (s.pc.toNat + 1))

/-- The next step fetches and decodes the instruction `i`: both bytes are in memory (R71) and decode to it (R76). -/
abbrev State.Fetches (s : State) (i : Instr) : Prop := s.pc.toNat ≤ 0xFFE ∧ decode s.wordAtPc = .ok i

/-! ### Invariants -/

/-- The bounds of R28: `pc`, and every stack entry. -/
abbrev State.PcBounded (s : State) : Prop :=
  s.pc.toNat ≤ 0x10FE ∧ ∀ j : Fin 16, (s.stack[j.val]).toNat ≤ 0x1000

/-- The invariant of every reachable state: memory is canonical, and the bounds of R28 hold. -/
abbrev State.Inv (s : State) : Prop := s.mem.wf ∧ s.PcBounded

/-! ### Runs -/

/-- `n` steps. -/
def steps (n : Nat) (s : State) : Result := Host.Core.run Sys2Proof.core n s

/-- The state a result answers, or none where it stops. -/
def stateOf (r : Result) : Option State :=
  match r with
  | .next t => some t
  | .fault _ => none
  | .refused _ => none

/-- The operations that start the machine over (R204, R231). -/
def HostOp.isReset : HostOp → Bool
  | .reset _ _ => true
  | .load _ | .step | .tickTimers | .setKey _ | .clearKey _ | .frameBuffer | .status => false

end Sys2Proof.Machine
end

