-- ==== Sys2Proof/Certificates/Slice0/Obligations.lean ====
section
/-! DEFINITION. The statements for the provers, in the order of the spec's files. `exec i s` runs `i` on the state
before the step, `s.pc` being `pc_insn` (log 4). A fault is a next state with `halted` set (log 5). -/

open Sys2Proof Sys2Proof.Machine

/-! ### Reset and the invariants -/

/-- R38, R40-R44: the registers, `pc`, the stack, the timers, the frame buffer and the keys after create and after the
host's `reset()` of any state, for every `FONT` and `RESET_MEM_TAIL`. -/
def Obligations.ResetEstablishesTheRegisters : Prop :=
  ResetRegisters State.reset ∧
  ∀ (font : Vector Byte 80) (tail : Vector Byte 4016) (s : State),
    ResetRegisters (create font tail) ∧ ∃ u, hostApply (.reset font tail) s = .next (u, .done) ∧ ResetRegisters u

/-- 20_memory.md R55 and 70_reset_and_hazards.md R231, with D11 and D12: the host's `reset()` answers the state that
create gives, but for the model's count of draws, which goes on (log 3); memory after create and after `reset()` holds
`FONT` and then the tail, whatever they are; `I` is 0 (the spec's decision D12, log 9) and `halted` none (D4). -/
def Obligations.ResetMemoryHoldsFontAndTail : Prop :=
  ∀ (font : Vector Byte 80) (tail : Vector Byte 4016) (s : State),
    hostApply (.reset font tail) s = .next (s.resetMachine font tail, .done) ∧
    s.resetMachine font tail = { create font tail with draws := s.draws } ∧
    ∀ u, (u = create font tail ∨ hostApply (.reset font tail) s = .next (u, .done)) →
      u.i = 0 ∧ u.halted = none ∧ (∀ k : Fin 80, u.mem.read k.val = font[k.val]) ∧
        ∀ k : Fin 4016, u.mem.read (80 + k.val) = tail[k.val]

/-- The invariant holds at reset, for every `FONT` and `RESET_MEM_TAIL`. -/
def Obligations.InvariantHoldsAtReset : Prop :=
  State.reset.Inv ∧
  ∀ (font : Vector Byte 80) (tail : Vector Byte 4016) (s : State),
    (create font tail).Inv ∧ (s.resetMachine font tail).Inv

/-- Every step keeps memory in its canonical form (rising addresses inside 0x000-0xFFF, no entry that says what an
unlisted address says). -/
def Obligations.StepKeepsMemoryCanonical : Prop :=
  ∀ s t : State, s.mem.wf → step s = .next t → t.mem.wf

/-- R28: `pc` stays at most 0x10FE and every stack entry at most 0x1000, so no update of `pc` wraps. -/
def Obligations.StepKeepsPcBounded : Prop :=
  ∀ s t : State, s.PcBounded → step s = .next t → t.PcBounded

/-- R217: from create, every sequence of host operations runs to its end, and the invariant holds after it. -/
def Obligations.EveryHostScheduleRunsAndKeepsInvariant : Prop :=
  ∀ (font : Vector Byte 80) (tail : Vector Byte 4016) (ops : List HostOp),
    ∃ t, hostRun ops (create font tail) = .next t ∧ t.Inv

/-! ### Encoding -/

/-- Decoding the word of a well-formed instruction gives it back, for all 35 rows and every operand. -/
def Obligations.DecodeOfEncodeIsIdentity : Prop :=
  ∀ i : Instr, i.wellFormed = true → decode (encode i) = .ok i

/-- A decoded instruction is well-formed and encodes to the word it was read from: no bit of a word is lost. -/
def Obligations.EncodeOfDecodeIsIdentity : Prop :=
  ∀ (ir : Word) (i : Instr), decode ir = .ok i → i.wellFormed = true ∧ encode i = ir

/-- R76: a word matches at most one row of the opcode table, and the decoder accepts it exactly when it matches one. -/
def Obligations.DecoderAcceptsExactlyTheTable : Prop :=
  ∀ ir : Word,
    (∀ i, decode ir = .ok i → (opcodeRows.filter (fun r => r.covers ir)).length = 1) ∧
    (∀ e, decode ir = .error e → e = .unknownOpcode ir ∧ opcodeRows.filter (fun r => r.covers ir) = [])

/-- Words of the spec's examples and the instructions they stand for, one of each family at least. -/
def Obligations.SampleWordsDecode : Prop :=
  decode 0x0000 = .ok .nop ∧ decode 0x00EE = .ok .ret ∧ decode 0x2ABC = .ok (.call 0xABC) ∧
  decode 0x3342 = .ok (.seImm 3 0x42) ∧ decode 0x8125 = .ok (.subReg 1 2) ∧ decode 0xC30F = .ok (.rnd 3 0x0F) ∧
  decode 0xA300 = .ok (.ldI 0x300) ∧ decode 0xF255 = .ok (.storeRegs 2) ∧ decode 0xD012 = .ok (.drw 0 1 2) ∧
  decode 0xE39E = .ok (.skp 3) ∧ decode 0xF018 = .ok (.ldStVx 0)

/-! ### The step cycle and faults -/

/-- R57, R71, R75: a running core whose two bytes at `pc`, the lower address high, decode to `i` steps as `exec i`. -/
def Obligations.StepRunsTheDecodedInstruction : Prop :=
  ∀ (s : State) (i : Instr), s.Running → s.pc.toNat ≤ 0xFFE →
    decode (wordOfBytes (s.mem.read s.pc.toNat) (s.mem.read (s.pc.toNat + 1))) = .ok i →
    step s = exec i s

/-- D5, D7: a fetch at `pc > 0xFFE` halts the core with the first address above 0xFFF, and nothing else changes. -/
def Obligations.FetchOutsideMemoryHalts : Prop :=
  ∀ s : State, s.Running → s.pc.toNat > 0xFFE →
    step s = .next (haltedWith (.memoryOutOfRange (max s.pc.toNat 0x1000)) none s)

/-- R77: a word that matches no row of the opcode table halts the core with UnknownOpcode, and nothing else changes
(the record and the discarded writes are the spec's decisions D2 and D3). -/
def Obligations.UnknownWordHalts : Prop :=
  ∀ s : State, s.Running → s.pc.toNat ≤ 0xFFE → (∀ r ∈ opcodeRows, r.covers s.wordAtPc = false) →
    step s = .next (haltedWith .unknownOpcode (some s.wordAtPc) s)

/-- R200: which instruction raises which fault, and exactly when; everywhere else the instruction completes and
`halted` is kept. -/
def Obligations.InstructionsFaultExactlyWhenTheTableSays : Prop :=
  ∀ (i : Instr) (s : State),
    (∀ f, faultOf i s = some f → exec i s = .next (haltedBy f i s)) ∧
    (faultOf i s = none → ∃ t, exec i s = .next t ∧ t.halted = s.halted)

/-- R201, R202: a step that faults discards every write; of the state before it only `halted` changes, and the record
holds `pc_insn` and the fetched word, or none when the fetch itself faulted. -/
def Obligations.FaultingStepIsAtomic : Prop :=
  ∀ s t : State, s.Running → step s = .next t → ¬ t.Running →
    ∃ f : Fault, t = haltedWith f (if s.pc.toNat ≤ 0xFFE then some s.wordAtPc else none) s

/-- R200, R201: the code and the info of each fault's record. -/
def Obligations.FaultRecordsCarryCodeAndInfo : Prop :=
  ∀ (pcInsn : Word) (ir : Option Word) (addr : Nat) (v : Byte),
    let record := fun f : Fault => ({ fault := f, pcInsn := pcInsn, ir := ir } : FaultRecord)
    ((record .unknownOpcode).code, (record .unknownOpcode).info) = (1, none) ∧
    ((record .stackOverflow).code, (record .stackOverflow).info) = (2, none) ∧
    ((record .stackUnderflow).code, (record .stackUnderflow).info) = (3, none) ∧
    ((record (.memoryOutOfRange addr)).code, (record (.memoryOutOfRange addr)).info) = (4, some addr) ∧
    ((record (.keyIndexOutOfRange v)).code, (record (.keyIndexOutOfRange v)).info) = (5, some v.toNat)

/-- 60_exceptions.md R204, with D4 and log 5: a step of a halted core changes nothing at all; and a halted core stays
halted with the same fault through every sequence of host operations without a reset, its registers, `I`, `pc`, stack,
frame buffer and count of draws kept (the other operations still move the timers, the keys and memory). -/
def Obligations.HaltedUntilReset : Prop :=
  (∀ (s : State) (r : FaultRecord), s.halted = some r → step s = .next s) ∧
  ∀ (ops : List HostOp) (s t : State) (r : FaultRecord), (∀ op ∈ ops, op.isReset = false) → s.halted = some r →
    hostRun ops s = .next t →
    t.halted = some r ∧ KeepsRegsBut [] s t ∧ t.i = s.i ∧ t.pc = s.pc ∧ KeepsStack s t ∧ t.fb = s.fb ∧
      t.draws = s.draws

/-- Every step answers a next state: no instruction, no fetch and no decode stops the model. -/
def Obligations.EveryStepAnswersANextState : Prop :=
  ∀ s : State, ∃ t, step s = .next t

/-- R211: what `step()` returns to the host. -/
def Obligations.StepReportsItsResult : Prop :=
  ∀ s : State, ∃ t r, hostApply .step s = .next (t, .stepped r) ∧ step s = .next t ∧
    (r = .ok ↔ s.Running ∧ t.Running) ∧
    (∀ f, r = .fault f ↔ s.Running ∧ t.halted = some f) ∧
    (∀ f, r = .halted f ↔ s.halted = some f)

/-! ### Control flow -/

/-- R101: nothing changes but `pc`. -/
def Obligations.NopOnlyAdvancesPc : Prop :=
  ∀ s : State, exec .nop s = .next { s with pc := s.pc + 2 }

/-- R103: `pc` is the 12-bit address, zero-extended; nothing else changes. -/
def Obligations.JumpSetsPc : Prop :=
  ∀ (nnn : Word) (s : State), ∃ t, exec (.jp nnn) s = .next t ∧ t.pc = nnn ∧ ChangesOnlyPc s t

/-- 40_control_flow.md, Bnnn, with D5: `pc` is `V[0] + nnn`, not masked to 12 bits; nothing else changes. -/
def Obligations.IndexedJumpSetsPc : Prop :=
  ∀ (nnn : Word) (s : State), ∃ t, exec (.jpV0 nnn) s = .next t ∧
    t.pc.toNat = ((s.reg 0).toNat + nnn.toNat) % 65536 ∧ ChangesOnlyPc s t

/-- 40_control_flow.md R104, with D2 and D3: with room on the stack, the address after the CALL is pushed and `pc` is the
target; with none, the step is discarded: StackOverflow is recorded in `halted` (the spec's decisions D2 and D3, log 5)
and nothing else changes. -/
def Obligations.CallPushesAndJumps : Prop :=
  ∀ (nnn : Word) (s : State),
    (s.sp.val < 16 → ∃ t, exec (.call nnn) s = .next t ∧ t.pc = nnn ∧ t.sp.val = s.sp.val + 1 ∧
      (∀ j : Fin 16, t.stack[j.val] = if j.val = s.sp.val then s.pc + 2 else s.stack[j.val]) ∧
      ChangesOnlyStack s t) ∧
    (s.sp.val = 16 → ∃ r : FaultRecord, exec (.call nnn) s = .next { s with halted := some r } ∧
      r.fault = .stackOverflow)

/-- 40_control_flow.md R102, with D2, D3 and D17: with an entry on the stack, `pc` is the most recent one, which stays in
its place (the spec's decision D17, log 14), and `SP` is one down; with none, the step is discarded: StackUnderflow is
recorded in `halted` (the spec's decisions D2 and D3, log 5) and nothing else changes. -/
def Obligations.ReturnPopsIntoPc : Prop :=
  ∀ s : State,
    (∀ j : Fin 16, s.sp.val = j.val + 1 → ∃ t, exec .ret s = .next t ∧ t.pc = s.stack[j.val] ∧ t.sp.val = j.val ∧
      t.stack = s.stack ∧ ChangesOnlyStack s t) ∧
    (s.sp.val = 0 → ∃ r : FaultRecord, exec .ret s = .next { s with halted := some r } ∧ r.fault = .stackUnderflow)

/-- R105-R108: a taken skip leaves `pc` four bytes on, one not taken two bytes on; nothing else changes. -/
def Obligations.CompareSkipsMovePc : Prop :=
  ∀ (x y : Reg) (kk : Byte) (s : State),
    (∃ t, exec (.seImm x kk) s = .next t ∧ t.pc = (if s.reg x = kk then s.pc + 4 else s.pc + 2) ∧ ChangesOnlyPc s t) ∧
    (∃ t, exec (.sneImm x kk) s = .next t ∧ t.pc = (if s.reg x = kk then s.pc + 2 else s.pc + 4) ∧ ChangesOnlyPc s t) ∧
    (∃ t, exec (.seReg x y) s = .next t ∧ t.pc = (if s.reg x = s.reg y then s.pc + 4 else s.pc + 2) ∧
      ChangesOnlyPc s t) ∧
    (∃ t, exec (.sneReg x y) s = .next t ∧ t.pc = (if s.reg x = s.reg y then s.pc + 2 else s.pc + 4) ∧
      ChangesOnlyPc s t)

/-- R112: after a CALL at `s.pc` run with `SP` below 16, the first RET that a step executes with `SP` one above the
CALL's comes back to the instruction after the CALL, whatever host operations but a reset come between. -/
def Obligations.ReturnComesBackAfterItsCall : Prop :=
  ∀ (s t u : State) (nnn : Word) (ops : List HostOp),
    s.Running → s.Fetches (.call nnn) → s.sp.val < 16 → step s = .next t →
    (∀ op ∈ ops, op.isReset = false) →
    (∀ before after v, ops = before ++ .step :: after → hostRun before t = .next v →
      ¬(v.Running ∧ v.Fetches .ret ∧ v.sp.val = s.sp.val + 1)) →
    hostRun ops t = .next u → u.Running → u.Fetches .ret → u.sp.val = s.sp.val + 1 →
    ∃ w, step u = .next w ∧ w.pc = s.pc + 2 ∧ w.sp = s.sp

/-- R103: a jump to its own address runs forever and changes nothing. -/
def Obligations.SelfJumpLoopsForever : Prop :=
  ∀ (s : State) (n : Nat), s.Running → s.Fetches (.jp s.pc) → steps n s = .next s

/-! ### The ALU -/

/-- R122-R124: the loads and the immediate add, which writes no flag; only the destination changes. -/
def Obligations.LoadsAndImmediateAddWriteTheirRegister : Prop :=
  ∀ (x y : Reg) (kk : Byte) (s : State),
    (∃ t, exec (.ldImm x kk) s = .next t ∧ t.reg x = kk ∧ t.pc = s.pc + 2 ∧ ChangesOnlyRegs [x] s t) ∧
    (∃ t, exec (.addImm x kk) s = .next t ∧ (t.reg x).toNat = ((s.reg x).toNat + kk.toNat) % 256 ∧
      t.pc = s.pc + 2 ∧ ChangesOnlyRegs [x] s t) ∧
    (∃ t, exec (.ldReg x y) s = .next t ∧ t.reg x = s.reg y ∧ t.pc = s.pc + 2 ∧ ChangesOnlyRegs [x] s t)

/-- R125-R127: bit by bit, and VF is not written unless it is the destination. -/
def Obligations.LogicOpsWorkBitwise : Prop :=
  ∀ (x y : Reg) (s : State),
    (∃ t, exec (.orReg x y) s = .next t ∧
      (∀ b, b < 8 → (t.reg x).getLsbD b = ((s.reg x).getLsbD b || (s.reg y).getLsbD b)) ∧
      t.pc = s.pc + 2 ∧ ChangesOnlyRegs [x] s t) ∧
    (∃ t, exec (.andReg x y) s = .next t ∧
      (∀ b, b < 8 → (t.reg x).getLsbD b = ((s.reg x).getLsbD b && (s.reg y).getLsbD b)) ∧
      t.pc = s.pc + 2 ∧ ChangesOnlyRegs [x] s t) ∧
    (∃ t, exec (.xorReg x y) s = .next t ∧
      (∀ b, b < 8 → (t.reg x).getLsbD b = xor ((s.reg x).getLsbD b) ((s.reg y).getLsbD b)) ∧
      t.pc = s.pc + 2 ∧ ChangesOnlyRegs [x] s t)

/-- 41_alu.md, 8xy4, 8xy5 and 8xy7, with D8: the result modulo 256 and the carry or no-borrow flag, from the values
before the step; with x = 0xF the flag, which is written last (the order the rules write; the spec's decision D8, log
8), remains. -/
def Obligations.AddAndSubtractSetResultAndFlag : Prop :=
  ∀ (x y : Reg) (s : State),
    let a := (s.reg x).toNat
    let b := (s.reg y).toNat
    (∃ t, exec (.addReg x y) s = .next t ∧ (x ≠ Reg.vf → (t.reg x).toNat = (a + b) % 256) ∧
      (t.reg Reg.vf).toNat = (if a + b ≥ 256 then 1 else 0) ∧ t.pc = s.pc + 2 ∧ ChangesOnlyRegs [x, Reg.vf] s t) ∧
    (∃ t, exec (.subReg x y) s = .next t ∧ (x ≠ Reg.vf → (t.reg x).toNat = (a + 256 - b) % 256) ∧
      (t.reg Reg.vf).toNat = (if a ≥ b then 1 else 0) ∧ t.pc = s.pc + 2 ∧ ChangesOnlyRegs [x, Reg.vf] s t) ∧
    (∃ t, exec (.subnReg x y) s = .next t ∧ (x ≠ Reg.vf → (t.reg x).toNat = (b + 256 - a) % 256) ∧
      (t.reg Reg.vf).toNat = (if b ≥ a then 1 else 0) ∧ t.pc = s.pc + 2 ∧ ChangesOnlyRegs [x, Reg.vf] s t)

/-- 41_alu.md, 8xy6 and 8xyE, with D8: VF is the bit shifted out and `V[x]` shifts by one; with x = 0xF the flag is
shifted in place (the spec's decision D8, log 8). `y` is ignored. -/
def Obligations.ShiftsMoveOneBit : Prop :=
  ∀ (x y : Reg) (s : State),
    let a := (s.reg x).toNat
    (∃ t, exec (.shr x y) s = .next t ∧ (x ≠ Reg.vf → (t.reg x).toNat = a / 2 ∧ (t.reg Reg.vf).toNat = a % 2) ∧
      (x = Reg.vf → t.reg Reg.vf = 0) ∧ t.pc = s.pc + 2 ∧ ChangesOnlyRegs [x, Reg.vf] s t) ∧
    (∃ t, exec (.shl x y) s = .next t ∧
      (x ≠ Reg.vf → (t.reg x).toNat = a * 2 % 256 ∧ (t.reg Reg.vf).toNat = a / 128) ∧
      (x = Reg.vf → (t.reg Reg.vf).toNat = a / 128 * 2) ∧ t.pc = s.pc + 2 ∧ ChangesOnlyRegs [x, Reg.vf] s t)

/-- 41_alu.md, Cxkk, with D14: `kk AND` a free byte, one fresh draw per execution (log 3); it holds whatever the draws
are. -/
def Obligations.RandomMasksAFreshDraw : Prop :=
  ∀ (x : Reg) (kk : Byte) (s : State), ∃ t, exec (.rnd x kk) s = .next t ∧
    t.reg x = (kk &&& Config.rand8 s.draws) ∧ t.draws = s.draws + 1 ∧ t.pc = s.pc + 2 ∧
    KeepsRegsBut [x] s t ∧ t.i = s.i ∧ KeepsMemory s t ∧ KeepsStack s t ∧ KeepsTimers s t ∧ t.fb = s.fb ∧
    t.keys = s.keys ∧ t.halted = s.halted

/-! ### The address register and memory -/

/-- R140-R142: `I`, unsigned and unmasked; nothing else but `pc` changes. -/
def Obligations.IndexInstructionsSetI : Prop :=
  ∀ (x : Reg) (nnn : Word) (s : State),
    (∃ t, exec (.ldI nnn) s = .next t ∧ t.i = nnn ∧ t.pc = s.pc + 2 ∧ ChangesOnlyIndex s t) ∧
    (∃ t, exec (.addI x) s = .next t ∧ t.i.toNat = (s.i.toNat + (s.reg x).toNat) % 65536 ∧ t.pc = s.pc + 2 ∧
      ChangesOnlyIndex s t) ∧
    (∃ t, exec (.ldF x) s = .next t ∧ t.i.toNat = (s.reg x).toNat * 5 ∧ t.pc = s.pc + 2 ∧ ChangesOnlyIndex s t)

/-- 42_index_memory.md, Fx33, with D2, D3, D5: the three decimal digits at `I`, `I + 1`, `I + 2`; if they do not all
lie in memory, the step is discarded with the first address above 0xFFF. -/
def Obligations.DecimalDigitsAreStored : Prop :=
  ∀ (x : Reg) (s : State),
    (s.i.toNat + 2 ≤ 0xFFF → ∃ t, exec (.ldB x) s = .next t ∧
      (t.mem.read s.i.toNat).toNat = (s.reg x).toNat / 100 ∧
      (t.mem.read (s.i.toNat + 1)).toNat = (s.reg x).toNat / 10 % 10 ∧
      (t.mem.read (s.i.toNat + 2)).toNat = (s.reg x).toNat % 10 ∧
      t.pc = s.pc + 2 ∧ ChangesOnlyMemory s.i.toNat 3 s t) ∧
    (s.i.toNat + 2 > 0xFFF →
      exec (.ldB x) s = .next (haltedBy (.memoryOutOfRange (max s.i.toNat 0x1000)) (.ldB x) s))

/-- 42_index_memory.md, Fx55, with D2, D3, D5: `V[0..x]` at `I` and up; if they do not all lie in memory, the step is
discarded with the first address above 0xFFF. -/
def Obligations.RegistersAreStored : Prop :=
  ∀ (x : Reg) (s : State),
    (s.i.toNat + x.val ≤ 0xFFF → ∃ t, exec (.storeRegs x) s = .next t ∧
      (∀ k : Reg, k ≤ x → t.mem.read (s.i.toNat + k.val) = s.reg k) ∧
      t.pc = s.pc + 2 ∧ ChangesOnlyMemory s.i.toNat (x.val + 1) s t) ∧
    (s.i.toNat + x.val > 0xFFF →
      exec (.storeRegs x) s = .next (haltedBy (.memoryOutOfRange (max s.i.toNat 0x1000)) (.storeRegs x) s))

/-- 42_index_memory.md, Fx65, with D2, D3, D5: `V[0..x]` from `I` and up, the registers above `x` kept; if the bytes
do not all lie in memory, the step is discarded with the first address above 0xFFF. -/
def Obligations.RegistersAreLoaded : Prop :=
  ∀ (x : Reg) (s : State),
    (s.i.toNat + x.val ≤ 0xFFF → ∃ t, exec (.loadRegs x) s = .next t ∧
      (∀ k : Reg, k ≤ x → t.reg k = s.mem.read (s.i.toNat + k.val)) ∧ (∀ k : Reg, x < k → t.reg k = s.reg k) ∧
      t.pc = s.pc + 2 ∧ t.i = s.i ∧ KeepsBeyondRegs s t) ∧
    (s.i.toNat + x.val > 0xFFF →
      exec (.loadRegs x) s = .next (haltedBy (.memoryOutOfRange (max s.i.toNat 0x1000)) (.loadRegs x) s))

/-- R65: bytes stored over the next instruction are what the next step fetches. -/
def Obligations.StoredCodeRunsAtOnce : Prop :=
  ∀ (x : Reg) (s t : State) (i : Instr), s.Running → 1 ≤ x.val → s.i.toNat + x.val ≤ 0xFFF → s.pc + 2 = s.i →
    decode (wordOfBytes (s.reg 0) (s.reg 1)) = .ok i → exec (.storeRegs x) s = .next t → step t = exec i t

/-! ### The display -/

/-- R161: every cell unlit; nothing else but `pc` changes. -/
def Obligations.ClearUnlightsEveryCell : Prop :=
  ∀ s : State, ∃ t, exec .cls s = .next t ∧ (∀ (row : Fin 32) (col : Fin 64), t.fb.cell row col = false) ∧
    t.pc = s.pc + 2 ∧ ChangesOnlyScreen [] s t

/-- 43_display.md, Dxyn, with D3, D5 and D9 (bit 7 leftmost, log 7): the cells the sprite covers, wrapping at both
edges, are toggled and every other cell is kept; if the sprite does not lie in memory, the step is discarded. -/
def Obligations.DrawTogglesTheCoveredCells : Prop :=
  ∀ (x y : Reg) (n : Nat) (s : State), n < 16 →
    (n = 0 ∨ s.i.toNat + n ≤ 0x1000 → ∃ t, exec (.drw x y n) s = .next t ∧
      (∀ (row : Fin 32) (col : Fin 64),
        (SpriteCovers s.mem s.i.toNat n (s.reg x).toNat (s.reg y).toNat row col →
          t.fb.cell row col = !s.fb.cell row col) ∧
        (¬ SpriteCovers s.mem s.i.toNat n (s.reg x).toNat (s.reg y).toNat row col →
          t.fb.cell row col = s.fb.cell row col)) ∧
      t.pc = s.pc + 2 ∧ ChangesOnlyScreen [Reg.vf] s t) ∧
    (n ≠ 0 ∧ s.i.toNat + n > 0x1000 →
      exec (.drw x y n) s = .next (haltedBy (.memoryOutOfRange (max s.i.toNat 0x1000)) (.drw x y n) s))

/-- R163: VF is 1 exactly when a toggled cell was lit before the draw, else 0. -/
def Obligations.CollisionFlagTellsOfALitCell : Prop :=
  ∀ (x y : Reg) (n : Nat) (s : State), n < 16 → (n = 0 ∨ s.i.toNat + n ≤ 0x1000) →
    ∃ t, exec (.drw x y n) s = .next t ∧
      ((∃ (row : Fin 32) (col : Fin 64), t.fb.cell row col ≠ s.fb.cell row col ∧ s.fb.cell row col = true) →
        t.reg Reg.vf = 1) ∧
      ((∀ (row : Fin 32) (col : Fin 64), t.fb.cell row col ≠ s.fb.cell row col → s.fb.cell row col = false) →
        t.reg Reg.vf = 0)

/-- R164: the same sprite drawn twice at the same origin, with no other change of the frame buffer between, restores it,
and the second draw sets VF exactly when the first turned a cell on. -/
def Obligations.DrawingTwiceRestoresTheScreen : Prop :=
  ∀ (x y x' y' : Reg) (n : Nat) (s t s' : State), n < 16 → (n = 0 ∨ s.i.toNat + n ≤ 0x1000) →
    exec (.drw x y n) s = .next t →
    s'.fb = t.fb → s'.reg x' = s.reg x → s'.reg y' = s.reg y → (n = 0 ∨ s'.i.toNat + n ≤ 0x1000) →
    (∀ k, k < n → s'.mem.read (s'.i.toNat + k) = s.mem.read (s.i.toNat + k)) →
    ∃ u, exec (.drw x' y' n) s' = .next u ∧ u.fb = s.fb ∧
      (u.reg Reg.vf = 1 ↔
        ∃ (row : Fin 32) (col : Fin 64), s.fb.cell row col = false ∧ t.fb.cell row col = true)

/-! ### Keys and timers -/

/-- 44_timers_keys.md, Ex9E and ExA1, with D2, D3, D6: skip on the key numbered `V[x]`; a number above 0xF discards
the step with KeyIndexOutOfRange. -/
def Obligations.KeySkipsMovePc : Prop :=
  ∀ (x : Reg) (s : State),
    (∀ k : Fin 16, (s.reg x).toNat = k.val →
      (∃ t, exec (.skp x) s = .next t ∧ t.pc = (if s.keys[k.val] = true then s.pc + 4 else s.pc + 2) ∧
        ChangesOnlyPc s t) ∧
      (∃ t, exec (.sknp x) s = .next t ∧ t.pc = (if s.keys[k.val] = true then s.pc + 2 else s.pc + 4) ∧
        ChangesOnlyPc s t)) ∧
    ((s.reg x).toNat > 0x0F →
      exec (.skp x) s = .next (haltedBy (.keyIndexOutOfRange (s.reg x)) (.skp x) s) ∧
      exec (.sknp x) s = .next (haltedBy (.keyIndexOutOfRange (s.reg x)) (.sknp x) s))

/-- R174: with no key pressed the step changes nothing at all; else `V[x]` is the lowest pressed key. -/
def Obligations.KeyWaitTakesTheLowestKey : Prop :=
  ∀ (x : Reg) (s : State),
    ((∀ k : Fin 16, s.keys[k.val] = false) → exec (.ldVxK x) s = .next s) ∧
    (∀ k : Fin 16, s.keys[k.val] = true → (∀ j : Fin 16, j < k → s.keys[j.val] = false) →
      ∃ t, exec (.ldVxK x) s = .next t ∧ (t.reg x).toNat = k.val ∧ t.pc = s.pc + 2 ∧ ChangesOnlyRegs [x] s t)

/-- R174: any number of steps at a key wait with no key pressed changes nothing. -/
def Obligations.KeyWaitStallsUntilAKey : Prop :=
  ∀ (x : Reg) (s : State) (n : Nat), s.Running → s.Fetches (.ldVxK x) → (∀ k : Fin 16, s.keys[k.val] = false) →
    steps n s = .next s

/-- R173, R175, R176: the timers are read and written as ordinary bytes. -/
def Obligations.TimerInstructionsMoveBytes : Prop :=
  ∀ (x : Reg) (s : State),
    (∃ t, exec (.ldVxDt x) s = .next t ∧ t.reg x = s.dt ∧ t.pc = s.pc + 2 ∧ ChangesOnlyRegs [x] s t) ∧
    (∃ t, exec (.ldDtVx x) s = .next t ∧ t.dt = s.reg x ∧ t.st = s.st ∧ t.pc = s.pc + 2 ∧ KeepsRegsBut [] s t ∧
      t.i = s.i ∧ KeepsMemory s t ∧ KeepsStack s t ∧ t.fb = s.fb ∧ KeepsControl s t) ∧
    (∃ t, exec (.ldStVx x) s = .next t ∧ t.st = s.reg x ∧ t.dt = s.dt ∧ t.pc = s.pc + 2 ∧ KeepsRegsBut [] s t ∧
      t.i = s.i ∧ KeepsMemory s t ∧ KeepsStack s t ∧ t.fb = s.fb ∧ KeepsControl s t)

/-! ### Whole-machine rules -/

/-- R26: what `pc` is after every instruction that completes: the fetch's advance, two more for a taken skip, the target
of a jump or call, the popped entry, or the fetch's advance taken back by a key wait. -/
def Obligations.PcChangesOnlyAsListed : Prop :=
  ∀ (i : Instr) (s t : State), exec i s = .next t → faultOf i s = none →
    (setsPc i = false → skips i = false → t.pc = s.pc + 2) ∧
    (skips i = true → t.pc = s.pc + 2 ∨ t.pc = s.pc + 2 + 2) ∧
    (∀ nnn, i = .jp nnn ∨ i = .call nnn → t.pc = nnn) ∧
    (∀ nnn, i = .jpV0 nnn → t.pc.toNat = ((s.reg 0).toNat + nnn.toNat) % 65536) ∧
    (∀ j : Fin 16, i = .ret → s.sp.val = j.val + 1 → t.pc = s.stack[j.val]) ∧
    (∀ x, i = .ldVxK x → t.pc = if ∀ k : Fin 16, s.keys[k.val] = false then s.pc + 2 - 2 else s.pc + 2)

/-- R146: no instruction but Annn, Fx1E and Fx29 changes `I`. -/
def Obligations.OnlyIndexInstructionsChangeI : Prop :=
  ∀ (i : Instr) (s t : State), exec i s = .next t →
    t.i = s.i ∨ (∃ nnn, i = .ldI nnn) ∨ (∃ x, i = .addI x) ∨ ∃ x, i = .ldF x

/-- R21 with the destinations of each rule: every register an instruction does not write keeps its value. -/
def Obligations.OtherRegistersKeepTheirValue : Prop :=
  ∀ (i : Instr) (s t : State) (r : Reg), exec i s = .next t → writesReg i r = false → t.reg r = s.reg r

/-- R22: an instruction that is no flag writer, does not name VF as its destination and does not load it leaves VF
unchanged; VF is 0 at reset. -/
def Obligations.OnlyFlagWritersAndDestinationsChangeVf : Prop :=
  State.reset.reg Reg.vf = 0 ∧
  ∀ (i : Instr) (s t : State), exec i s = .next t →
    t.reg Reg.vf = s.reg Reg.vf ∨ writesFlag i = true ∨ i = .loadRegs 0xF ∨
    (∃ kk, i = .ldImm 0xF kk ∨ i = .addImm 0xF kk ∨ i = .rnd 0xF kk) ∨
    (∃ y, i = .ldReg 0xF y ∨ i = .orReg 0xF y ∨ i = .andReg 0xF y ∨ i = .xorReg 0xF y) ∨
    i = .ldVxDt 0xF ∨ i = .ldVxK 0xF

/-- R29: the stack is written only by 2nnn and read only by 00EE, and no fetch reaches it. -/
def Obligations.StackIsSeenOnlyByCallAndReturn : Prop :=
  ∀ (i : Instr) (s t t' : State) (stack' : Vector Word 16),
    (exec i s = .next t → t.stack = s.stack ∨ ∃ nnn, i = .call nnn) ∧
    (i ≠ .ret → exec i s = .next t → exec i { s with stack := stack' } = .next t' →
      { t' with stack := t.stack } = t) ∧
    ({ s with stack := stack' } : State).fetch = s.fetch

/-- R32: `DT` is written only by Fx15 and `ST` only by Fx18, no instruction decrements either, and none reads `ST`. -/
def Obligations.TimersAreWrittenOnlyByTheirInstructions : Prop :=
  ∀ (i : Instr) (s t t' : State) (b : Byte),
    (exec i s = .next t → t.dt = s.dt ∨ ∃ x, i = .ldDtVx x ∧ t.dt = s.reg x) ∧
    (exec i s = .next t → t.st = s.st ∨ ∃ x, i = .ldStVx x ∧ t.st = s.reg x) ∧
    (exec i s = .next t → exec i { s with st := b } = .next t' → { t' with st := t.st } = t)

/-- 10_state.md R33 and R34, 20_memory.md R60: only 00E0 and Dxyn change the frame buffer, no instruction changes a key,
only Fx33 and Fx55 change memory, and only inside the bytes they store. -/
def Obligations.ScreenKeysAndMemoryHaveTheirWriters : Prop :=
  ∀ (i : Instr) (s t : State), exec i s = .next t →
    (t.fb = s.fb ∨ i = .cls ∨ ∃ x y n, i = .drw x y n) ∧ t.keys = s.keys ∧
    (KeepsMemory s t ∨ (∃ x, i = .ldB x ∧ KeepsMemoryBut s.i.toNat 3 s t) ∨
      ∃ x, i = .storeRegs x ∧ KeepsMemoryBut s.i.toNat (x.val + 1) s t)

/-! ### The host's operations -/

/-- R212: each timer above 0 counts down by one, one at 0 stays, nothing else changes, and the tone edge is returned
when `ST` was 1. -/
def Obligations.TickCountsDownBothTimers : Prop :=
  ∀ s : State, ∃ t edge, hostApply .tickTimers s = .next (t, .tone edge) ∧
    t.dt.toNat = s.dt.toNat - 1 ∧ t.st.toNat = s.st.toNat - 1 ∧ (edge = true ↔ s.st.toNat = 1) ∧
    t = { s with dt := t.dt, st := t.st }

/-- R213: with `ST = v`, the tone edge comes on the `v`-th tick and on no other. -/
def Obligations.ToneEdgeComesOnce : Prop :=
  ∀ (s : State) (k : Nat), (State.toneEdge (State.tickTimers^[k] s) = true ↔ s.st.toNat = k + 1)

/-- 60_exceptions.md R214 with D1: one key is set or cleared and nothing else changes; a key above 0xF is refused. -/
def Obligations.KeyOperationsSetOneKey : Prop :=
  ∀ (s : State) (k : Nat),
    (k < 16 → ∃ t u, hostApply (.setKey k) s = .next (t, .done) ∧ hostApply (.clearKey k) s = .next (u, .done) ∧
      (∀ j : Fin 16, t.keys[j.val] = if j.val = k then true else s.keys[j.val]) ∧
      (∀ j : Fin 16, u.keys[j.val] = if j.val = k then false else s.keys[j.val]) ∧
      t = { s with keys := t.keys } ∧ u = { s with keys := u.keys }) ∧
    (k ≥ 16 → hostApply (.setKey k) s = .next (s, .keyRefused) ∧ hostApply (.clearKey k) s = .next (s, .keyRefused))

/-- R233: a load overwrites the ROM's bytes at 0x200 and up and nothing else. -/
def Obligations.LoadCopiesTheRomOnly : Prop :=
  ∀ (s : State) (rom : List Byte), 0x200 + rom.length ≤ 4096 →
    ∃ t, hostApply (.load rom) s = .next (t, .done) ∧
      (∀ j, j < rom.length → t.mem.read (0x200 + j) = rom.getD j 0) ∧
      KeepsMemoryBut 0x200 rom.length s t ∧ t = { s with mem := t.mem }

/-- 70_reset_and_hazards.md R232 with D15: a ROM that does not fit is refused and writes nothing. -/
def Obligations.LoadTooLargeWritesNothing : Prop :=
  ∀ (s : State) (rom : List Byte), 0x200 + rom.length > 4096 →
    hostApply (.load rom) s = .next (s, .loadTooLarge rom.length)

/-- R215, and R216 with D4: reading the frame buffer or the status changes nothing. -/
def Obligations.ObservationsChangeNothing : Prop :=
  ∀ s : State, hostApply .frameBuffer s = .next (s, .frame s.fb) ∧ hostApply .status s = .next (s, .status s.halted)

/-! ### The step lemmas of the statements about runs -/

/-- The invariant (canonical memory, and the bounds of 10_state.md R28) is kept by every host operation, a step among
them, from every state that has it. -/
def Obligations.HostOperationsKeepTheInvariant : Prop :=
  ∀ (op : HostOp) (s t : State) (r : HostReply), s.Inv → hostApply op s = .next (t, r) → t.Inv

/-- 40_control_flow.md R112, its reason: a step keeps every stack entry in use, and keeps it in use, except the RET that
pops it. -/
def Obligations.StackEntriesInUseAreKeptUntilTheirReturn : Prop :=
  ∀ (s t : State) (k : Fin 16), k.val < s.sp.val → step s = .next t →
    ¬(s.Running ∧ s.Fetches .ret ∧ s.sp.val = k.val + 1) →
    t.stack[k.val] = s.stack[k.val] ∧ k.val < t.sp.val
end

