-- ==== Sys2Proof/Laws/Decode.lean ====
section
/-! SUPPORT. The masks of the opcode table as arithmetic on the word (spec/30_encoding.md R76). -/

namespace Sys2Proof

/-- The top four bits of a 16-bit number. -/
theorem and_top_nibble {n : Nat} (h : n < 65536) : n &&& 0xF000 = n / 4096 * 4096 := by
  have e : n / 4096 * 4096 = (n >>> 12) <<< 12 := by simp [Nat.shiftRight_eq_div_pow, Nat.shiftLeft_eq]
  rw [e]
  apply Nat.eq_of_testBit_eq
  intro i
  simp only [Nat.testBit_and, Nat.testBit_shiftLeft, Nat.testBit_shiftRight]
  by_cases hi : i < 16
  · interval_cases i <;> simp [Nat.testBit]
  · have hn : n.testBit i = false :=
      Nat.testBit_lt_two_pow (lt_of_lt_of_le h (Nat.pow_le_pow_right (n := 2) (by norm_num) (by omega : 16 ≤ i)))
    have e' : 12 + (i - 12) = i := by omega
    simp [hn, e']

/-- A row whose mask is 0xF000 covers a word by its major opcode. -/
theorem and_mask_major (w : Word) : (w &&& 0xF000).toNat = w.toNat / 4096 * 4096 := by
  rw [BitVec.toNat_and]
  exact and_top_nibble w.isLt

/-- A row whose mask is 0xF00F covers a word by its major opcode and its low nibble. -/
theorem and_mask_nibble (w : Word) : (w &&& 0xF00F).toNat = w.toNat / 4096 * 4096 + w.toNat % 16 := by
  rw [BitVec.toNat_and]
  show w.toNat &&& (0xF000 ||| 0xF) = _
  rw [Nat.and_or_distrib_left, and_top_nibble w.isLt, show (0xF : Nat) = 2 ^ 4 - 1 from rfl,
    Nat.and_two_pow_sub_one_eq_mod, show w.toNat / 4096 * 4096 = 2 ^ 4 * (w.toNat / 4096 * 256) by ring,
    ← Nat.two_pow_add_eq_or_of_lt (Nat.mod_lt _ (by norm_num))]

/-- A row whose mask is 0xF0FF covers a word by its major opcode and its low byte. -/
theorem and_mask_byte (w : Word) : (w &&& 0xF0FF).toNat = w.toNat / 4096 * 4096 + w.toNat % 256 := by
  rw [BitVec.toNat_and]
  show w.toNat &&& (0xF000 ||| 0xFF) = _
  rw [Nat.and_or_distrib_left, and_top_nibble w.isLt, show (0xFF : Nat) = 2 ^ 8 - 1 from rfl,
    Nat.and_two_pow_sub_one_eq_mod, show w.toNat / 4096 * 4096 = 2 ^ 8 * (w.toNat / 4096 * 16) by ring,
    ← Nat.two_pow_add_eq_or_of_lt (Nat.mod_lt _ (by norm_num))]

/-- A row whose mask is 0xFFFF covers one word. -/
theorem and_mask_all (w : Word) : w &&& 0xFFFF = w := BitVec.and_allOnes

/-- A row covers a word, as an equation of numbers. -/
theorem OpcodeRow.covers_eq (r : OpcodeRow) (ir : Word) :
    r.covers ir = decide ((ir &&& r.mask).toNat = r.value.toNat) := by
  simp [OpcodeRow.covers, BitVec.toNat_eq, beq_eq_decide]

end Sys2Proof
end

