-- ==== Sys2Proof/Laws/Memory.lean ====
section
/-! SUPPORT. The laws of the memory array: reading after writing, and the canonical form, which every operation keeps
and which makes equal memories equal data. -/

namespace Sys2Proof.Machine.Memory

/-! ### Reading after writing -/

theorem read_listByte (m : Memory) (a b : Nat) (v : Byte) :
    (m.listByte a v).read b = if b = a then v else m.read b := by
  induction m with
  | nil => simp [listByte, read, eq_comm]
  | cons c rest ih =>
    obtain ⟨d, w⟩ := c
    unfold listByte
    split
    · simp [read, eq_comm]
    · split
      · subst_vars
        by_cases hb : b = d <;> simp [read, hb, eq_comm]
      · by_cases hb : d = b
        · have : b ≠ a := by omega
          simp [read, hb, this]
        · simp [read, hb, ih]

theorem read_unlist (m : Memory) (a b : Nat) :
    (m.unlist a).read b = if b = a then unlistedByte a else m.read b := by
  induction m with
  | nil => by_cases h : b = a <;> simp [unlist, read, h]
  | cons c rest ih =>
    obtain ⟨d, w⟩ := c
    simp only [unlist, List.filter_cons] at ih ⊢
    by_cases hd : d = a
    · subst hd
      by_cases hb : b = d
      · simpa [hb] using ih
      · have hb' : ¬ d = b := fun e => hb e.symm
        simpa [read, hb, hb'] using ih
    · by_cases hb : d = b
      · subst hb; simp [read, hd]
      · simpa [read, hd, hb] using ih

/-- A read after a write to the same place gives the value written, and a write leaves every other place alone. -/
@[simp] theorem read_write (m : Memory) (a b : Nat) (v : Byte) :
    (m.write a v).read b = if b = a then v else m.read b := by
  unfold write
  split
  · rename_i h; rw [read_unlist, h]
  · exact read_listByte m a b v

/-- What reads as before a sequence of writes and what reads as written. -/
theorem read_writeSeq (m : Memory) (a b : Nat) (vs : List Byte) :
    (m.writeSeq a vs).read b = if a ≤ b ∧ b < a + vs.length then vs.getD (b - a) 0 else m.read b := by
  induction vs generalizing m a with
  | nil => simp [writeSeq]
  | cons v vs ih =>
    rw [writeSeq, ih, read_write]
    by_cases h1 : b = a
    · subst h1; simp
    · by_cases h2 : a ≤ b ∧ b < a + (vs.length + 1)
      · have h3 : a + 1 ≤ b ∧ b < a + 1 + vs.length := by omega
        obtain ⟨k, hk⟩ : ∃ k, b - a = k + 1 := ⟨b - a - 1, by omega⟩
        have h4 : b - (a + 1) = k := by omega
        simp [h2, h3, hk, h4]
      · have h3 : ¬(a + 1 ≤ b ∧ b < a + 1 + vs.length) := by omega
        rw [if_neg h3, if_neg h1, List.length_cons, if_neg h2]

theorem read_writeSeq_outside {m : Memory} {a b : Nat} {vs : List Byte} (h : ¬(a ≤ b ∧ b < a + vs.length)) :
    (m.writeSeq a vs).read b = m.read b := by rw [read_writeSeq, if_neg h]

/-! ### The canonical form -/

theorem wf_nil : wf [] := by simp [wf]

theorem mem_listByte {m : Memory} {a : Nat} {v : Byte} {c : Host.Cell} (h : c ∈ m.listByte a v) :
    c = (a, v) ∨ c ∈ m := by
  induction m with
  | nil => simpa [listByte] using h
  | cons d rest ih =>
    obtain ⟨b, w⟩ := d
    unfold listByte at h
    split at h
    · simpa using h
    · split at h
      · rcases List.mem_cons.1 h with h | h
        · exact .inl h
        · exact .inr (List.mem_cons_of_mem _ h)
      · rcases List.mem_cons.1 h with h | h
        · exact .inr (h ▸ List.mem_cons_self)
        · exact (ih h).imp_right (List.mem_cons_of_mem _)

theorem wf_listByte {m : Memory} {a : Nat} {v : Byte} (hm : m.wf) (ha : a < Config.memSize)
    (hv : v ≠ unlistedByte a) : (m.listByte a v).wf := by
  refine ⟨?_, fun c hc => ?_⟩
  · have hs := hm.1
    clear hm
    induction m with
    | nil => simp [listByte]
    | cons d rest ih =>
      obtain ⟨b, w⟩ := d
      rw [List.pairwise_cons] at hs
      unfold listByte
      split
      · rename_i hab
        refine List.pairwise_cons.2 ⟨fun c hc => ?_, List.pairwise_cons.2 hs⟩
        rcases List.mem_cons.1 hc with rfl | hc
        · exact hab
        · exact Nat.lt_trans hab (hs.1 c hc)
      · split
        · subst_vars; exact List.pairwise_cons.2 hs
        · refine List.pairwise_cons.2 ⟨fun c hc => ?_, ih hs.2⟩
          rcases mem_listByte hc with rfl | hc
          · show b < a; omega
          · exact hs.1 c hc
  · rcases mem_listByte hc with rfl | hc
    · exact ⟨ha, hv⟩
    · exact hm.2 c hc

theorem wf_unlist {m : Memory} {a : Nat} (hm : m.wf) : (m.unlist a).wf :=
  ⟨hm.1.filter _, fun c hc => hm.2 c (List.mem_filter.1 hc).1⟩

/-- A write inside the address space keeps the canonical form. -/
theorem wf_write {m : Memory} {a : Nat} {v : Byte} (hm : m.wf) (ha : a < Config.memSize) : (m.write a v).wf := by
  unfold write
  split
  · exact wf_unlist hm
  · exact wf_listByte hm ha ‹_›

/-- So does a sequence of writes inside it. -/
theorem wf_writeSeq {m : Memory} {a : Nat} {vs : List Byte} (hm : m.wf) (ha : a + vs.length ≤ Config.memSize) :
    (m.writeSeq a vs).wf := by
  induction vs generalizing m a with
  | nil => exact hm
  | cons v vs ih =>
    simp only [List.length_cons] at ha
    exact ih (wf_write hm (by omega)) (by omega)

/-- In a canonical memory a listed address reads as its entry. -/
theorem read_of_mem {m : Memory} (hm : m.wf) {c : Host.Cell} (hc : c ∈ m) : m.read c.1 = c.2 := by
  have hs := hm.1
  clear hm
  induction m with
  | nil => simp at hc
  | cons d rest ih =>
    obtain ⟨b, w⟩ := d
    rw [List.pairwise_cons] at hs
    rcases List.mem_cons.1 hc with rfl | hc
    · simp [read]
    · have : b ≠ c.1 := fun e => absurd (hs.1 c hc) (by simp [e])
      simp [read, this, ih hc hs.2]

/-- An address that is listed nowhere reads as an unlisted one. -/
theorem read_of_not_listed {m : Memory} {a : Nat} (h : ∀ c ∈ m, c.1 ≠ a) : m.read a = unlistedByte a := by
  induction m with
  | nil => rfl
  | cons d rest ih =>
    obtain ⟨b, w⟩ := d
    have hb : b ≠ a := h (b, w) List.mem_cons_self
    simp [read, hb, ih fun c hc => h c (List.mem_cons_of_mem _ hc)]

/-- In a canonical memory the listed cells are exactly those that read unlike an unlisted address. -/
theorem mem_iff_read {m : Memory} (hm : m.wf) (c : Host.Cell) :
    c ∈ m ↔ m.read c.1 = c.2 ∧ c.2 ≠ unlistedByte c.1 := by
  refine ⟨fun hc => ⟨read_of_mem hm hc, (hm.2 c hc).2⟩, fun ⟨hr, hne⟩ => ?_⟩
  by_contra hc
  apply hne
  rw [← hr]
  refine read_of_not_listed fun d hd hda => hc ?_
  have hd2 := read_of_mem hm hd
  rw [hda, hr] at hd2
  have : d = c := Prod.ext hda hd2.symm
  exact this ▸ hd

/-- Canonical memories that read alike are the same list. -/
theorem eq_of_read_eq {m m' : Memory} (hm : m.wf) (hm' : m'.wf) (h : ∀ a, m.read a = m'.read a) : m = m' := by
  have hmem : ∀ c : Host.Cell, c ∈ m ↔ c ∈ m' := fun c => by rw [mem_iff_read hm, mem_iff_read hm', h]
  have nd : ∀ {l : Memory}, l.wf → l.Nodup := fun hl => hl.1.imp fun {c d} (hcd : c.1 < d.1) e => by
    rw [e] at hcd; exact Nat.lt_irrefl _ hcd
  have hp : m.Perm m' := (List.perm_ext_iff_of_nodup (nd hm) (nd hm')).2 hmem
  exact hp.eq_of_pairwise (fun c d _ _ (h1 : c.1 < d.1) (h2 : d.1 < c.1) => absurd h1 (Nat.lt_asymm h2)) hm.1 hm'.1

/-- Writing a byte an address already reads as changes nothing in a canonical memory. -/
theorem write_read {m : Memory} (hm : m.wf) {a : Nat} (ha : a < Config.memSize) : m.write a (m.read a) = m :=
  eq_of_read_eq (wf_write hm ha) hm fun b => by
    rw [read_write]; split
    · rename_i h; rw [h]
    · rfl

end Sys2Proof.Machine.Memory
end

