-- ==== Sys2Proof/Laws/State.lean ====
section
/-! SUPPORT. What each update of the state does to each field: one lemma per field per update, so that no proof unfolds
a record update. -/

namespace Sys2Proof.Machine.State

/-! ### `advancePc` -/

@[simp] theorem advancePc_mem (s : State) : s.advancePc.mem = s.mem := rfl
@[simp] theorem advancePc_v (s : State) : s.advancePc.v = s.v := rfl
@[simp] theorem advancePc_i (s : State) : s.advancePc.i = s.i := rfl
@[simp] theorem advancePc_pc (s : State) : s.advancePc.pc = s.pc + 2 := rfl
@[simp] theorem advancePc_stack (s : State) : s.advancePc.stack = s.stack := rfl
@[simp] theorem advancePc_sp (s : State) : s.advancePc.sp = s.sp := rfl
@[simp] theorem advancePc_dt (s : State) : s.advancePc.dt = s.dt := rfl
@[simp] theorem advancePc_st (s : State) : s.advancePc.st = s.st := rfl
@[simp] theorem advancePc_fb (s : State) : s.advancePc.fb = s.fb := rfl
@[simp] theorem advancePc_keys (s : State) : s.advancePc.keys = s.keys := rfl
@[simp] theorem advancePc_halted (s : State) : s.advancePc.halted = s.halted := rfl
@[simp] theorem advancePc_draws (s : State) : s.advancePc.draws = s.draws := rfl
@[simp] theorem advancePc_reg (s : State) (r : Reg) : s.advancePc.reg r = s.reg r := rfl

/-! ### `skip` -/

@[simp] theorem skip_mem (s : State) : s.skip.mem = s.mem := rfl
@[simp] theorem skip_v (s : State) : s.skip.v = s.v := rfl
@[simp] theorem skip_i (s : State) : s.skip.i = s.i := rfl
@[simp] theorem skip_pc (s : State) : s.skip.pc = s.pc + 2 := rfl
@[simp] theorem skip_stack (s : State) : s.skip.stack = s.stack := rfl
@[simp] theorem skip_sp (s : State) : s.skip.sp = s.sp := rfl
@[simp] theorem skip_dt (s : State) : s.skip.dt = s.dt := rfl
@[simp] theorem skip_st (s : State) : s.skip.st = s.st := rfl
@[simp] theorem skip_fb (s : State) : s.skip.fb = s.fb := rfl
@[simp] theorem skip_keys (s : State) : s.skip.keys = s.keys := rfl
@[simp] theorem skip_halted (s : State) : s.skip.halted = s.halted := rfl
@[simp] theorem skip_draws (s : State) : s.skip.draws = s.draws := rfl
@[simp] theorem skip_reg (s : State) (r : Reg) : s.skip.reg r = s.reg r := rfl

/-! ### `rewindPc` -/

@[simp] theorem rewindPc_mem (s : State) : s.rewindPc.mem = s.mem := rfl
@[simp] theorem rewindPc_v (s : State) : s.rewindPc.v = s.v := rfl
@[simp] theorem rewindPc_i (s : State) : s.rewindPc.i = s.i := rfl
@[simp] theorem rewindPc_pc (s : State) : s.rewindPc.pc = s.pc - 2 := rfl
@[simp] theorem rewindPc_stack (s : State) : s.rewindPc.stack = s.stack := rfl
@[simp] theorem rewindPc_sp (s : State) : s.rewindPc.sp = s.sp := rfl
@[simp] theorem rewindPc_dt (s : State) : s.rewindPc.dt = s.dt := rfl
@[simp] theorem rewindPc_st (s : State) : s.rewindPc.st = s.st := rfl
@[simp] theorem rewindPc_fb (s : State) : s.rewindPc.fb = s.fb := rfl
@[simp] theorem rewindPc_keys (s : State) : s.rewindPc.keys = s.keys := rfl
@[simp] theorem rewindPc_halted (s : State) : s.rewindPc.halted = s.halted := rfl
@[simp] theorem rewindPc_draws (s : State) : s.rewindPc.draws = s.draws := rfl
@[simp] theorem rewindPc_reg (s : State) (r : Reg) : s.rewindPc.reg r = s.reg r := rfl

/-! ### `jumpTo` -/

@[simp] theorem jumpTo_mem (s : State) (w : Word) : (s.jumpTo w).mem = s.mem := rfl
@[simp] theorem jumpTo_v (s : State) (w : Word) : (s.jumpTo w).v = s.v := rfl
@[simp] theorem jumpTo_i (s : State) (w : Word) : (s.jumpTo w).i = s.i := rfl
@[simp] theorem jumpTo_pc (s : State) (w : Word) : (s.jumpTo w).pc = w := rfl
@[simp] theorem jumpTo_stack (s : State) (w : Word) : (s.jumpTo w).stack = s.stack := rfl
@[simp] theorem jumpTo_sp (s : State) (w : Word) : (s.jumpTo w).sp = s.sp := rfl
@[simp] theorem jumpTo_dt (s : State) (w : Word) : (s.jumpTo w).dt = s.dt := rfl
@[simp] theorem jumpTo_st (s : State) (w : Word) : (s.jumpTo w).st = s.st := rfl
@[simp] theorem jumpTo_fb (s : State) (w : Word) : (s.jumpTo w).fb = s.fb := rfl
@[simp] theorem jumpTo_keys (s : State) (w : Word) : (s.jumpTo w).keys = s.keys := rfl
@[simp] theorem jumpTo_halted (s : State) (w : Word) : (s.jumpTo w).halted = s.halted := rfl
@[simp] theorem jumpTo_draws (s : State) (w : Word) : (s.jumpTo w).draws = s.draws := rfl
@[simp] theorem jumpTo_reg (s : State) (w : Word) (r : Reg) : (s.jumpTo w).reg r = s.reg r := rfl

/-! ### `setReg` -/

@[simp] theorem setReg_mem (s : State) (x : Reg) (b : Byte) : (s.setReg x b).mem = s.mem := rfl
@[simp] theorem setReg_v (s : State) (x : Reg) (b : Byte) : (s.setReg x b).v = s.v.set x.val b := rfl
@[simp] theorem setReg_i (s : State) (x : Reg) (b : Byte) : (s.setReg x b).i = s.i := rfl
@[simp] theorem setReg_pc (s : State) (x : Reg) (b : Byte) : (s.setReg x b).pc = s.pc := rfl
@[simp] theorem setReg_stack (s : State) (x : Reg) (b : Byte) : (s.setReg x b).stack = s.stack := rfl
@[simp] theorem setReg_sp (s : State) (x : Reg) (b : Byte) : (s.setReg x b).sp = s.sp := rfl
@[simp] theorem setReg_dt (s : State) (x : Reg) (b : Byte) : (s.setReg x b).dt = s.dt := rfl
@[simp] theorem setReg_st (s : State) (x : Reg) (b : Byte) : (s.setReg x b).st = s.st := rfl
@[simp] theorem setReg_fb (s : State) (x : Reg) (b : Byte) : (s.setReg x b).fb = s.fb := rfl
@[simp] theorem setReg_keys (s : State) (x : Reg) (b : Byte) : (s.setReg x b).keys = s.keys := rfl
@[simp] theorem setReg_halted (s : State) (x : Reg) (b : Byte) : (s.setReg x b).halted = s.halted := rfl
@[simp] theorem setReg_draws (s : State) (x : Reg) (b : Byte) : (s.setReg x b).draws = s.draws := rfl

/-! ### `setIndex` -/

@[simp] theorem setIndex_mem (s : State) (w : Word) : (s.setIndex w).mem = s.mem := rfl
@[simp] theorem setIndex_v (s : State) (w : Word) : (s.setIndex w).v = s.v := rfl
@[simp] theorem setIndex_i (s : State) (w : Word) : (s.setIndex w).i = w := rfl
@[simp] theorem setIndex_pc (s : State) (w : Word) : (s.setIndex w).pc = s.pc := rfl
@[simp] theorem setIndex_stack (s : State) (w : Word) : (s.setIndex w).stack = s.stack := rfl
@[simp] theorem setIndex_sp (s : State) (w : Word) : (s.setIndex w).sp = s.sp := rfl
@[simp] theorem setIndex_dt (s : State) (w : Word) : (s.setIndex w).dt = s.dt := rfl
@[simp] theorem setIndex_st (s : State) (w : Word) : (s.setIndex w).st = s.st := rfl
@[simp] theorem setIndex_fb (s : State) (w : Word) : (s.setIndex w).fb = s.fb := rfl
@[simp] theorem setIndex_keys (s : State) (w : Word) : (s.setIndex w).keys = s.keys := rfl
@[simp] theorem setIndex_halted (s : State) (w : Word) : (s.setIndex w).halted = s.halted := rfl
@[simp] theorem setIndex_draws (s : State) (w : Word) : (s.setIndex w).draws = s.draws := rfl
@[simp] theorem setIndex_reg (s : State) (w : Word) (r : Reg) : (s.setIndex w).reg r = s.reg r := rfl

/-! ### `draw` -/

@[simp] theorem draw_mem (s : State) : s.draw.2.mem = s.mem := rfl
@[simp] theorem draw_v (s : State) : s.draw.2.v = s.v := rfl
@[simp] theorem draw_i (s : State) : s.draw.2.i = s.i := rfl
@[simp] theorem draw_pc (s : State) : s.draw.2.pc = s.pc := rfl
@[simp] theorem draw_stack (s : State) : s.draw.2.stack = s.stack := rfl
@[simp] theorem draw_sp (s : State) : s.draw.2.sp = s.sp := rfl
@[simp] theorem draw_dt (s : State) : s.draw.2.dt = s.dt := rfl
@[simp] theorem draw_st (s : State) : s.draw.2.st = s.st := rfl
@[simp] theorem draw_fb (s : State) : s.draw.2.fb = s.fb := rfl
@[simp] theorem draw_keys (s : State) : s.draw.2.keys = s.keys := rfl
@[simp] theorem draw_halted (s : State) : s.draw.2.halted = s.halted := rfl
@[simp] theorem draw_draws (s : State) : s.draw.2.draws = s.draws + 1 := rfl
@[simp] theorem draw_reg (s : State) (r : Reg) : s.draw.2.reg r = s.reg r := rfl

/-! ### `takeFault` -/

@[simp] theorem takeFault_mem (s : State) (f : Fault) (ir : Option Word) : (s.takeFault f ir).mem = s.mem := rfl
@[simp] theorem takeFault_v (s : State) (f : Fault) (ir : Option Word) : (s.takeFault f ir).v = s.v := rfl
@[simp] theorem takeFault_i (s : State) (f : Fault) (ir : Option Word) : (s.takeFault f ir).i = s.i := rfl
@[simp] theorem takeFault_pc (s : State) (f : Fault) (ir : Option Word) : (s.takeFault f ir).pc = s.pc := rfl
@[simp] theorem takeFault_stack (s : State) (f : Fault) (ir : Option Word) : (s.takeFault f ir).stack = s.stack := rfl
@[simp] theorem takeFault_sp (s : State) (f : Fault) (ir : Option Word) : (s.takeFault f ir).sp = s.sp := rfl
@[simp] theorem takeFault_dt (s : State) (f : Fault) (ir : Option Word) : (s.takeFault f ir).dt = s.dt := rfl
@[simp] theorem takeFault_st (s : State) (f : Fault) (ir : Option Word) : (s.takeFault f ir).st = s.st := rfl
@[simp] theorem takeFault_fb (s : State) (f : Fault) (ir : Option Word) : (s.takeFault f ir).fb = s.fb := rfl
@[simp] theorem takeFault_keys (s : State) (f : Fault) (ir : Option Word) : (s.takeFault f ir).keys = s.keys := rfl
@[simp] theorem takeFault_halted (s : State) (f : Fault) (ir : Option Word) : (s.takeFault f ir).halted = some { fault := f, pcInsn := s.pc, ir := ir } := rfl
@[simp] theorem takeFault_draws (s : State) (f : Fault) (ir : Option Word) : (s.takeFault f ir).draws = s.draws := rfl
@[simp] theorem takeFault_reg (s : State) (f : Fault) (ir : Option Word) (r : Reg) : (s.takeFault f ir).reg r = s.reg r := rfl

/-! ### `tickTimers` -/

@[simp] theorem tickTimers_mem (s : State) : s.tickTimers.mem = s.mem := rfl
@[simp] theorem tickTimers_v (s : State) : s.tickTimers.v = s.v := rfl
@[simp] theorem tickTimers_i (s : State) : s.tickTimers.i = s.i := rfl
@[simp] theorem tickTimers_pc (s : State) : s.tickTimers.pc = s.pc := rfl
@[simp] theorem tickTimers_stack (s : State) : s.tickTimers.stack = s.stack := rfl
@[simp] theorem tickTimers_sp (s : State) : s.tickTimers.sp = s.sp := rfl
@[simp] theorem tickTimers_dt (s : State) : s.tickTimers.dt = countDown s.dt := rfl
@[simp] theorem tickTimers_st (s : State) : s.tickTimers.st = countDown s.st := rfl
@[simp] theorem tickTimers_fb (s : State) : s.tickTimers.fb = s.fb := rfl
@[simp] theorem tickTimers_keys (s : State) : s.tickTimers.keys = s.keys := rfl
@[simp] theorem tickTimers_halted (s : State) : s.tickTimers.halted = s.halted := rfl
@[simp] theorem tickTimers_draws (s : State) : s.tickTimers.draws = s.draws := rfl
@[simp] theorem tickTimers_reg (s : State) (r : Reg) : s.tickTimers.reg r = s.reg r := rfl

/-! ### `writeKey` -/

@[simp] theorem writeKey_mem (s : State) (k : Nat) (b : Bool) : (s.writeKey k b).mem = s.mem := rfl
@[simp] theorem writeKey_v (s : State) (k : Nat) (b : Bool) : (s.writeKey k b).v = s.v := rfl
@[simp] theorem writeKey_i (s : State) (k : Nat) (b : Bool) : (s.writeKey k b).i = s.i := rfl
@[simp] theorem writeKey_pc (s : State) (k : Nat) (b : Bool) : (s.writeKey k b).pc = s.pc := rfl
@[simp] theorem writeKey_stack (s : State) (k : Nat) (b : Bool) : (s.writeKey k b).stack = s.stack := rfl
@[simp] theorem writeKey_sp (s : State) (k : Nat) (b : Bool) : (s.writeKey k b).sp = s.sp := rfl
@[simp] theorem writeKey_dt (s : State) (k : Nat) (b : Bool) : (s.writeKey k b).dt = s.dt := rfl
@[simp] theorem writeKey_st (s : State) (k : Nat) (b : Bool) : (s.writeKey k b).st = s.st := rfl
@[simp] theorem writeKey_fb (s : State) (k : Nat) (b : Bool) : (s.writeKey k b).fb = s.fb := rfl
@[simp] theorem writeKey_keys (s : State) (k : Nat) (b : Bool) : (s.writeKey k b).keys = s.keys.setIfInBounds k b := rfl
@[simp] theorem writeKey_halted (s : State) (k : Nat) (b : Bool) : (s.writeKey k b).halted = s.halted := rfl
@[simp] theorem writeKey_draws (s : State) (k : Nat) (b : Bool) : (s.writeKey k b).draws = s.draws := rfl
@[simp] theorem writeKey_reg (s : State) (k : Nat) (b : Bool) (r : Reg) : (s.writeKey k b).reg r = s.reg r := rfl

/-! ### `skipIf` -/

@[simp] theorem skipIf_mem (s : State) (c : Bool) : (s.skipIf c).mem = s.mem := by cases c <;> rfl
@[simp] theorem skipIf_v (s : State) (c : Bool) : (s.skipIf c).v = s.v := by cases c <;> rfl
@[simp] theorem skipIf_i (s : State) (c : Bool) : (s.skipIf c).i = s.i := by cases c <;> rfl
@[simp] theorem skipIf_pc (s : State) (c : Bool) : (s.skipIf c).pc = if c then s.pc + 2 else s.pc := by cases c <;> rfl
@[simp] theorem skipIf_stack (s : State) (c : Bool) : (s.skipIf c).stack = s.stack := by cases c <;> rfl
@[simp] theorem skipIf_sp (s : State) (c : Bool) : (s.skipIf c).sp = s.sp := by cases c <;> rfl
@[simp] theorem skipIf_dt (s : State) (c : Bool) : (s.skipIf c).dt = s.dt := by cases c <;> rfl
@[simp] theorem skipIf_st (s : State) (c : Bool) : (s.skipIf c).st = s.st := by cases c <;> rfl
@[simp] theorem skipIf_fb (s : State) (c : Bool) : (s.skipIf c).fb = s.fb := by cases c <;> rfl
@[simp] theorem skipIf_keys (s : State) (c : Bool) : (s.skipIf c).keys = s.keys := by cases c <;> rfl
@[simp] theorem skipIf_halted (s : State) (c : Bool) : (s.skipIf c).halted = s.halted := by cases c <;> rfl
@[simp] theorem skipIf_draws (s : State) (c : Bool) : (s.skipIf c).draws = s.draws := by cases c <;> rfl
@[simp] theorem skipIf_reg (s : State) (c : Bool) (r : Reg) : (s.skipIf c).reg r = s.reg r := by cases c <;> rfl

/-! ### Reading the register file after a write -/

/-- `V[x] <- b` gives `b` at `x` and keeps every other register. -/
@[simp] theorem setReg_reg (s : State) (x r : Reg) (b : Byte) :
    (s.setReg x b).reg r = if r = x then b else s.reg r := by
  by_cases h : r = x
  · subst h; simp [State.setReg, State.reg]
  · have hne : x.val ≠ r.val := fun e => h (Fin.ext e.symm)
    simp [State.setReg, State.reg, h, hne]

/-- The register file is known by its registers. -/
theorem v_ext {s t : State} (h : ∀ r : Reg, t.reg r = s.reg r) : t.v = s.v :=
  Vector.ext fun k hk => h ⟨k, hk⟩

end Sys2Proof.Machine.State
end

