-- ==== Sys2Proof/Laws/Ops.lean ====
section
/-! SUPPORT. What each shared operation can do, said once: memory access, the stack, the register transfers, the key
lookup, the flags, the end of an instruction. -/

namespace Sys2Proof.Machine

/-! ### Faults of an access -/

theorem accessFault_none {base n : Nat} : accessFault base n = none ↔ n = 0 ∨ base + n ≤ 0x1000 := by
  unfold accessFault; split <;> simp <;> omega

theorem accessFault_some {base n : Nat} (h : n ≠ 0 ∧ base + n > 0x1000) :
    accessFault base n = some (.memoryOutOfRange (max base 0x1000)) := if_pos h

theorem accessFault_succ (base n : Nat) :
    accessFault base (n + 1) = if base > 0xFFF then some (.memoryOutOfRange base) else accessFault (base + 1) n := by
  unfold accessFault
  by_cases h : base > 0xFFF
  · have : max base 0x1000 = base := by omega
    simp [h, this]; omega
  · by_cases hn : n = 0
    · subst hn; simp [h]; omega
    · have e : max base 0x1000 = max (base + 1) 0x1000 := by omega
      have e' : base + (n + 1) = base + 1 + n := by omega
      simp [h, hn, e, e']

namespace State

/-- `MemRead` of `n` bytes: their values in order, or the fault of the access (R51, R203). -/
theorem memReadSeq_eq (s : State) (base n : Nat) :
    s.memReadSeq base n =
      match accessFault base n with
      | some f => .error f
      | none => .ok ((List.range n).map fun k => s.mem.read (base + k)) := by
  induction n generalizing base with
  | zero => rfl
  | succ n ih =>
    rw [memReadSeq, accessFault_succ, memRead]
    by_cases h : base > 0xFFF
    · simp [h]
    · simp only [h, if_false, ih]
      cases accessFault (base + 1) n with
      | some f => rfl
      | none =>
        simp only [List.range_succ_eq_map, List.map_cons, List.map_map]
        congr 3
        funext k
        simp [Nat.add_comm, Nat.add_left_comm]

/-- `MemWrite` of the bytes in order: all of them written, or the fault of the access (R51, R203). -/
theorem memWriteSeq_eq (s : State) (base : Nat) (bs : List Byte) :
    s.memWriteSeq base bs =
      match accessFault base bs.length with
      | some f => .error f
      | none => .ok { s with mem := s.mem.writeSeq base bs } := by
  induction bs generalizing s base with
  | nil => rfl
  | cons b bs ih =>
    rw [memWriteSeq, List.length_cons, accessFault_succ, memWrite]
    by_cases h : base > 0xFFF
    · simp [h]
    · simp only [h, if_false, ih]
      cases accessFault (base + 1) bs.length <;> rfl

/-- `Fetch()`: the word at `pc`, or the fault of reading two bytes there (R71). -/
theorem fetch_eq (s : State) :
    s.fetch =
      match accessFault s.pc.toNat 2 with
      | some f => .error f
      | none => .ok s.wordAtPc := by
  unfold fetch memRead
  rw [accessFault_succ, accessFault_succ]
  by_cases h : s.pc.toNat > 0xFFF
  · simp [h]
  · by_cases h' : s.pc.toNat + 1 > 0xFFF
    · simp [h, h']
    · simp [h, h', accessFault, wordAtPc]

/-! ### The stack -/

/-- `Push(v)` with room: the entry, and `SP` one up (R31). -/
theorem push_ok {s : State} (h : s.sp.val < 16) (w : Word) :
    ∃ t, s.push w = .ok t ∧ t = { s with stack := s.stack.set s.sp.val w, sp := ⟨s.sp.val + 1, by omega⟩ } :=
  ⟨_, dif_pos h, rfl⟩

/-- `Push(v)` on a full stack (R31). -/
theorem push_full {s : State} (h : ¬ s.sp.val < 16) (w : Word) : s.push w = .error .stackOverflow := dif_neg h

/-- `Pop()` with an entry: the entry, and `SP` one down (R31). -/
theorem pop_ok {s : State} (h : 0 < s.sp.val) :
    s.pop = .ok (s.stack[s.sp.val - 1], { s with sp := ⟨s.sp.val - 1, by omega⟩ }) := dif_pos h

/-- `Pop()` on an empty stack (R31). -/
theorem pop_empty {s : State} (h : ¬ 0 < s.sp.val) : s.pop = .error .stackUnderflow := dif_neg h

/-! ### Keys -/

/-- `KeyAt(v)` for a key there is (R170). -/
theorem keyAt_ok {s : State} {b : Byte} (h : b.toNat < 16) : s.keyAt b = .ok s.keys[b.toNat] := dif_pos h

/-- `KeyAt(v)` for one there is not (R170). -/
theorem keyAt_none {s : State} {b : Byte} (h : ¬ b.toNat < 16) : s.keyAt b = .error (.keyIndexOutOfRange b) := dif_neg h

/-- No lowest key: no key is pressed (R174). -/
theorem lowestKey_eq_none {s : State} : s.lowestKey = none ↔ ∀ k : Reg, s.keys[k.val] = false := by
  simp [lowestKey, List.find?_eq_none]

/-- The lowest key is pressed, and no lower key is (R174). -/
theorem lowestKey_eq_some {s : State} {k : Reg} :
    s.lowestKey = some k ↔ s.keys[k.val] = true ∧ ∀ j : Reg, j < k → s.keys[j.val] = false := by
  constructor
  · intro h
    unfold lowestKey at h
    refine ⟨by simpa using List.find?_some h, fun j hj => ?_⟩
    by_contra hne
    obtain ⟨l₁, l₂, hl, hnot⟩ := (List.find?_eq_some_iff_append.1 h).2
    have hsorted : (l₁ ++ k :: l₂).Pairwise (· < ·) := hl ▸ List.pairwise_lt_finRange 16
    have hj1 : j ∈ l₁ := by
      have hmem : j ∈ l₁ ++ k :: l₂ := hl ▸ List.mem_finRange j
      rcases List.mem_append.1 hmem with h1 | h1
      · exact h1
      · rw [List.pairwise_append] at hsorted
        rcases List.mem_cons.1 h1 with rfl | h2
        · exact absurd hj (lt_irrefl _)
        · exact absurd (List.rel_of_pairwise_cons hsorted.2.1 h2) (lt_asymm hj)
    have := hnot j hj1
    simp at this
    simp [this] at hne
  · rintro ⟨hk, hlow⟩
    cases hf : s.lowestKey with
    | none => rw [lowestKey_eq_none] at hf; simp [hf k] at hk
    | some m =>
      unfold lowestKey at hf
      have hm : s.keys[m.val] = true := by simpa using List.find?_some hf
      obtain ⟨l₁, l₂, hl, hnot⟩ := (List.find?_eq_some_iff_append.1 hf).2
      rcases lt_trichotomy m k with h | h | h
      · simp [hlow m h] at hm
      · rw [h]
      · have hsorted : (l₁ ++ m :: l₂).Pairwise (· < ·) := hl ▸ List.pairwise_lt_finRange 16
        have hmem : k ∈ l₁ ++ m :: l₂ := hl ▸ List.mem_finRange k
        rcases List.mem_append.1 hmem with h1 | h1
        · have := hnot k h1; simp [hk] at this
        · rw [List.pairwise_append] at hsorted
          rcases List.mem_cons.1 h1 with rfl | h2
          · exact absurd h (lt_irrefl _)
          · exact absurd (List.rel_of_pairwise_cons hsorted.2.1 h2) (lt_asymm h)

/-! ### The registers stored and loaded -/

/-- `V[0..x]` are `x + 1` bytes (R144). -/
@[simp] theorem regsUpTo_length (s : State) (x : Reg) : (s.regsUpTo x).length = x.val + 1 := by
  simp [regsUpTo]

/-- The `k`-th byte stored is `V[k]` (R144). -/
theorem regsUpTo_getD (s : State) {x k : Reg} (h : k ≤ x) : (s.regsUpTo x).getD k.val 0 = s.reg k := by
  have hk : k.val ≤ x.val := h
  have hx : k.val < x.val + 1 := by omega
  simp [regsUpTo, reg, hx]

end State

/-- Loading bytes into the registers from number `k` up (R145). -/
theorem loadSeq_get (v : Vector Byte 16) (k : Nat) (bs : List Byte) (r : Reg) :
    (loadSeq v k bs)[r.val] = if k ≤ r.val ∧ r.val < k + bs.length then bs.getD (r.val - k) 0 else v[r.val] := by
  induction bs generalizing v k with
  | nil => simp [loadSeq]
  | cons b bs ih =>
    rw [loadSeq, ih]
    by_cases h1 : r.val = k
    · have h3 : ¬(k + 1 ≤ r.val) := by omega
      simp [h1]
    · by_cases h2 : k ≤ r.val ∧ r.val < k + (bs.length + 1)
      · have h3 : k + 1 ≤ r.val ∧ r.val < k + 1 + bs.length := by omega
        obtain ⟨j, hj⟩ : ∃ j, r.val - k = j + 1 := ⟨r.val - k - 1, by omega⟩
        have h4 : r.val - (k + 1) = j := by omega
        simp [h2, h3, hj, h4]
      · have h3 : ¬(k + 1 ≤ r.val ∧ r.val < k + 1 + bs.length) := by omega
        have h5 : k ≠ r.val := fun e => h1 e.symm
        rw [if_neg h3, List.length_cons, if_neg h2]
        simp [h5]

/-! ### Flags and digits, as numbers -/

theorem flagByte_toNat (c : Bool) : (flagByte c).toNat = if c then 1 else 0 := by cases c <;> rfl

theorem carryFlag_toNat (a b : Byte) : (carryFlag a b).toNat = if a.toNat + b.toNat ≥ 256 then 1 else 0 := by
  simp [carryFlag, flagByte_toNat]

theorem noBorrowFlag_toNat (a b : Byte) : (noBorrowFlag a b).toNat = if a.toNat ≥ b.toNat then 1 else 0 := by
  simp [noBorrowFlag, flagByte_toNat]

theorem lowBitFlag_toNat (a : Byte) : (lowBitFlag a).toNat = a.toNat % 2 := by
  simp [lowBitFlag]; omega

theorem highBitFlag_toNat (a : Byte) : (highBitFlag a).toNat = a.toNat / 128 := by
  have := a.isLt
  simp [highBitFlag]; omega

@[simp] theorem decimalDigits_length (a : Byte) : (decimalDigits a).length = 3 := rfl

theorem glyphAddress_toNat (a : Byte) : (glyphAddress a).toNat = a.toNat * 5 := by
  have := a.isLt
  simp [glyphAddress]; omega

theorem indexedTarget_toNat (b : Byte) (w : Word) : (indexedTarget b w).toNat = (b.toNat + w.toNat) % 65536 := by
  simp [indexedTarget]

theorem advancedIndex_toNat (w : Word) (b : Byte) : (advancedIndex w b).toNat = (w.toNat + b.toNat) % 65536 := by
  simp [advancedIndex]

/-! ### The end of an instruction -/

/-- `finish` always answers a next state: the pseudocode's, or the state before the step with the fault taken. -/
theorem State.finish_next {s t : State} {ir : Word} {r : Except Fault State} (h : s.finish ir r = .next t) :
    r = .ok t ∨ ∃ f, r = .error f ∧ t = s.takeFault f (some ir) := by
  cases r with
  | ok u => left; simpa [State.finish] using h
  | error f => right; exact ⟨f, rfl, by simpa [State.finish] using h.symm⟩

@[simp] theorem State.finish_ok (s t : State) (ir : Word) : s.finish ir (.ok t) = .next t := rfl

@[simp] theorem State.finish_error (s : State) (ir : Word) (f : Fault) :
    s.finish ir (.error f) = .next (s.takeFault f (some ir)) := rfl

end Sys2Proof.Machine
end

