-- ==== Sys2Proof/Laws/Display.lean ====
section
/-! SUPPORT. What a draw does to the frame buffer, said once: every cell the sprite covers is toggled, every other cell
is kept, and the collision flag tells whether a covered cell was lit (spec/43_display.md R160, R162, R163). -/

namespace Sys2Proof.Machine

/-! ### One pixel -/

theorem FrameBuffer.cell_blank (r : Fin 32) (c : Fin 64) : FrameBuffer.blank.cell r c = false := by
  simp [FrameBuffer.cell, FrameBuffer.blank]

/-- A frame buffer is known by its cells. -/
theorem FrameBuffer.ext_cell {fb fb' : FrameBuffer} (h : ∀ r c, fb.cell r c = fb'.cell r c) : fb = fb' :=
  Vector.ext fun r hr => Vector.ext fun c hc => h ⟨r, hr⟩ ⟨c, hc⟩

theorem FrameBuffer.cell_toggle (fb : FrameBuffer) (row r : Fin 32) (col c : Fin 64) :
    (fb.toggle row col).cell r c = if r = row ∧ c = col then !fb.cell r c else fb.cell r c := by
  unfold FrameBuffer.toggle FrameBuffer.cell
  by_cases hr : r = row
  · subst hr
    by_cases hc : c = col
    · subst hc; simp
    · have hne : col.val ≠ c.val := fun e => hc (Fin.ext e.symm)
      simp [hc, hne]
  · have hne : row.val ≠ r.val := fun e => hr (Fin.ext e.symm)
    simp [hr, hne]

/-! ### One row -/

/-- A row of the sprite has a 1 bit among the offsets `cs` for column `c`. -/
def rowHits (b : Byte) (cx : Nat) (cs : List Nat) (c : Fin 64) : Bool :=
  cs.any fun k => spriteBit b k && decide ((cx + k) % 64 = c.val)

theorem rowHits_iff {b : Byte} {cx : Nat} {cs : List Nat} {c : Fin 64} :
    rowHits b cx cs c = true ↔ ∃ k ∈ cs, spriteBit b k = true ∧ (cx + k) % 64 = c.val := by
  simp [rowHits]

/-- The columns of one row: the covered cells of that row are toggled, the others kept (the offsets being different
and below 64). -/
theorem Blit.columns_cell (d : Blit) (b : Byte) (row cx : Nat) (cs : List Nat) (hnd : cs.Nodup)
    (hlt : ∀ k ∈ cs, k < 64) (r : Fin 32) (c : Fin 64) :
    (d.columns b row cx cs).fb.cell r c =
      if r.val = row % 32 ∧ rowHits b cx cs c = true then !d.fb.cell r c else d.fb.cell r c := by
  induction cs generalizing d with
  | nil => simp [Blit.columns, rowHits]
  | cons k cs ih =>
    have hnd' := (List.nodup_cons.1 hnd)
    have hk := hlt k List.mem_cons_self
    rw [Blit.columns, ih _ hnd'.2 fun j hj => hlt j (List.mem_cons_of_mem _ hj)]
    by_cases hb : spriteBit b k = true
    · rw [if_pos hb]
      simp only [Blit.pixel, FrameBuffer.cell_toggle]
      by_cases hr : r.val = row % 32
      · have hr' : r = wrapRow row := Fin.ext hr
        by_cases hc : (cx + k) % 64 = c.val
        · have hc' : c = wrapCol (cx + k) := Fin.ext hc.symm
          have hno : rowHits b cx cs c = false := by
            rw [Bool.eq_false_iff, ne_eq, rowHits_iff]
            rintro ⟨j, hj, -, hjc⟩
            have := hlt j (List.mem_cons_of_mem _ hj)
            have hjk : j = k := by omega
            exact hnd'.1 (hjk ▸ hj)
          have hyes : rowHits b cx (k :: cs) c = true :=
            rowHits_iff.2 ⟨k, List.mem_cons_self, hb, hc⟩
          rw [if_neg (by simp [hno]), if_pos ⟨hr', hc'⟩, if_pos ⟨hr, hyes⟩]
        · have hc' : ¬ c = wrapCol (cx + k) := fun e => hc (by rw [e]; rfl)
          have heq : rowHits b cx (k :: cs) c = rowHits b cx cs c := by simp [rowHits, hc]
          rw [heq]; simp [hr', hc']
      · have hr' : ¬ r = wrapRow row := fun e => hr (by rw [e]; rfl)
        simp [hr, hr']
    · have heq : rowHits b cx (k :: cs) c = rowHits b cx cs c := by simp [rowHits, hb]
      rw [if_neg hb, heq]

/-- The columns of one row: the flag tells whether a covered cell was lit. -/
theorem Blit.columns_collision (d : Blit) (b : Byte) (row cx : Nat) (cs : List Nat) (hnd : cs.Nodup)
    (hlt : ∀ k ∈ cs, k < 64) :
    (d.columns b row cx cs).collision = true ↔
      d.collision = true ∨ ∃ c : Fin 64, rowHits b cx cs c = true ∧ d.fb.cell (wrapRow row) c = true := by
  induction cs generalizing d with
  | nil => simp [Blit.columns, rowHits]
  | cons k cs ih =>
    have hnd' := (List.nodup_cons.1 hnd)
    have hk := hlt k List.mem_cons_self
    rw [Blit.columns, ih _ hnd'.2 fun j hj => hlt j (List.mem_cons_of_mem _ hj)]
    by_cases hb : spriteBit b k = true
    · rw [if_pos hb]
      have hsplit : ∀ c : Fin 64, rowHits b cx (k :: cs) c = true ↔
          c = wrapCol (cx + k) ∨ rowHits b cx cs c = true := fun c => by
        have hc : c = wrapCol (cx + k) ↔ (cx + k) % 64 = c.val := ⟨fun e => by rw [e]; rfl, fun e => Fin.ext e.symm⟩
        simp [rowHits, hb, hc]
      have hno : rowHits b cx cs (wrapCol (cx + k)) = false := by
        rw [Bool.eq_false_iff, ne_eq, rowHits_iff]
        rintro ⟨j, hj, -, hjc⟩
        have := hlt j (List.mem_cons_of_mem _ hj)
        have hjc' : (cx + j) % 64 = (cx + k) % 64 := hjc
        have hjk : j = k := by omega
        exact hnd'.1 (hjk ▸ hj)
      simp only [Blit.pixel, FrameBuffer.cell_toggle, Bool.or_eq_true, hsplit]
      constructor
      · rintro ((h | h) | ⟨c, hc, hl⟩)
        · exact .inl h
        · exact .inr ⟨_, .inl rfl, h⟩
        · have hne : ¬ c = wrapCol (cx + k) := fun e => by rw [e, hno] at hc; exact absurd hc (by simp)
          rw [if_neg fun h => hne h.2] at hl
          exact .inr ⟨c, .inr hc, hl⟩
      · rintro (h | ⟨c, rfl | hc, hl⟩)
        · exact .inl (.inl h)
        · exact .inl (.inr hl)
        · have hne : ¬ c = wrapCol (cx + k) := fun e => by rw [e, hno] at hc; exact absurd hc (by simp)
          exact .inr ⟨c, hc, by rw [if_neg fun h => hne h.2]; exact hl⟩
    · have heq : ∀ c, rowHits b cx (k :: cs) c = rowHits b cx cs c := fun c => by simp [rowHits, hb]
      simp only [if_neg hb, heq]

/-! ### The whole sprite -/

/-- The sprite of bytes `bs` drawn from row `row` and column `cx` has a 1 bit for the cell. -/
def spriteHits : List Byte → Nat → Nat → Fin 32 → Fin 64 → Prop
  | [], _, _, _, _ => False
  | b :: bs, row, cx, r, c => (r.val = row % 32 ∧ rowHits b cx (List.range 8) c = true) ∨ spriteHits bs (row + 1) cx r c

theorem spriteHits_iff {bs : List Byte} {row cx : Nat} {r : Fin 32} {c : Fin 64} :
    spriteHits bs row cx r c ↔
      ∃ k, k < bs.length ∧ ∃ j, j < 8 ∧
        (bs.getD k 0).getLsbD (7 - j) = true ∧ (row + k) % 32 = r.val ∧ (cx + j) % 64 = c.val := by
  induction bs generalizing row with
  | nil => simp [spriteHits]
  | cons b bs ih =>
    rw [spriteHits, ih, rowHits_iff]
    constructor
    · rintro (⟨hr, j, hj, hb, hc⟩ | ⟨k, hk, j, hj, hb, hr, hc⟩)
      · exact ⟨0, by simp, j, List.mem_range.1 hj, hb, by simpa using hr.symm, hc⟩
      · exact ⟨k + 1, by simpa using hk, j, hj, by simpa using hb, by omega, hc⟩
    · rintro ⟨k, hk, j, hj, hb, hr, hc⟩
      cases k with
      | zero => exact .inl ⟨by simpa using hr.symm, j, List.mem_range.2 hj, hb, hc⟩
      | succ k => exact .inr ⟨k, by simpa using hk, j, hj, by simpa using hb, by omega, hc⟩

theorem not_spriteHits_of_row {bs : List Byte} {row cx : Nat} {r : Fin 32} {c : Fin 64}
    (h : ∀ k, k < bs.length → (row + k) % 32 ≠ r.val) : ¬ spriteHits bs row cx r c := by
  rw [spriteHits_iff]
  rintro ⟨k, hk, j, -, -, hr, -⟩
  exact h k hk hr

/-- A draw of at most 32 rows: the covered cells are toggled, every other cell is kept (R162). -/
theorem Blit.rows_cell (d : Blit) (row cx : Nat) (bs : List Byte) (hlen : bs.length ≤ 32) (r : Fin 32) (c : Fin 64) :
    (spriteHits bs row cx r c → (d.rows row cx bs).fb.cell r c = !d.fb.cell r c) ∧
    (¬ spriteHits bs row cx r c → (d.rows row cx bs).fb.cell r c = d.fb.cell r c) := by
  induction bs generalizing d row with
  | nil => simp [Blit.rows, spriteHits]
  | cons b bs ih =>
    simp only [List.length_cons] at hlen
    have hcol := Blit.columns_cell d b row cx (List.range 8) List.nodup_range
      (fun k hk => by have := List.mem_range.1 hk; omega) r c
    obtain ⟨ih1, ih2⟩ := ih (d.columns b row cx (List.range 8)) (row + 1) (by omega)
    rw [Blit.rows, spriteHits]
    by_cases h1 : r.val = row % 32 ∧ rowHits b cx (List.range 8) c = true
    · have hno : ¬ spriteHits bs (row + 1) cx r c := not_spriteHits_of_row fun k hk => by omega
      rw [if_pos h1] at hcol
      simp [h1, ih2 hno, hcol]
    · rw [if_neg h1] at hcol
      simp only [h1, false_or]
      exact ⟨fun h => by rw [ih1 h, hcol], fun h => by rw [ih2 h, hcol]⟩

/-- A draw of at most 32 rows: the collision flag tells whether a covered cell was lit before it (R163). -/
theorem Blit.rows_collision (d : Blit) (row cx : Nat) (bs : List Byte) (hlen : bs.length ≤ 32) :
    (d.rows row cx bs).collision = true ↔
      d.collision = true ∨ ∃ r c, spriteHits bs row cx r c ∧ d.fb.cell r c = true := by
  induction bs generalizing d row with
  | nil => simp [Blit.rows, spriteHits]
  | cons b bs ih =>
    simp only [List.length_cons] at hlen
    have hlt : ∀ k ∈ List.range 8, k < 64 := fun k hk => by have := List.mem_range.1 hk; omega
    have hcell := Blit.columns_cell d b row cx (List.range 8) List.nodup_range hlt
    have keep : ∀ r c, spriteHits bs (row + 1) cx r c →
        (d.columns b row cx (List.range 8)).fb.cell r c = d.fb.cell r c := fun r c h => by
      rw [hcell, if_neg]
      rintro ⟨hr, -⟩
      exact not_spriteHits_of_row (fun k hk => by omega) h
    rw [Blit.rows, ih _ _ (by omega), Blit.columns_collision d b row cx _ List.nodup_range hlt]
    constructor
    · rintro ((h | ⟨c, hc, hl⟩) | ⟨r, c, hh, hl⟩)
      · exact .inl h
      · exact .inr ⟨wrapRow row, c, .inl ⟨rfl, hc⟩, hl⟩
      · exact .inr ⟨r, c, .inr hh, by rw [← keep r c hh]; exact hl⟩
    · rintro (h | ⟨r, c, ⟨hr, hc⟩ | hh, hl⟩)
      · exact .inl (.inl h)
      · have hr' : r = wrapRow row := Fin.ext hr
        exact .inl (.inr ⟨c, hc, hr' ▸ hl⟩)
      · exact .inr ⟨r, c, hh, by rw [keep r c hh]; exact hl⟩

/-- The bytes a draw reads from memory cover what the claims call `SpriteCovers` (R160). -/
theorem spriteHits_read_iff {m : Memory} {base n row cx : Nat} {r : Fin 32} {c : Fin 64} :
    spriteHits ((List.range n).map fun k => m.read (base + k)) row cx r c ↔ SpriteCovers m base n cx row r c := by
  rw [spriteHits_iff]
  constructor
  · rintro ⟨k, hk, j, hj, hb, h⟩
    simp only [List.length_map, List.length_range] at hk
    exact ⟨k, hk, j, hj, by simpa [hk] using hb, h⟩
  · rintro ⟨k, hk, j, hj, hb, h⟩
    exact ⟨k, by simpa using hk, j, hj, by simpa [hk] using hb, h⟩

end Sys2Proof.Machine
end

