-- ==== Sys2Proof/Laws/Exec.lean ====
section
/-! SUPPORT. The spec lemma of each meaning that may raise: what it answers, by the condition of spec/60_exceptions.md
R200. The other meanings are one update of the state and need none. -/

namespace Sys2Proof.Machine

/-- `RET` with an entry on the stack (R102). -/
theorem execRet_ok {s : State} (h : 0 < s.sp.val) :
    execRet s = .next { s with pc := s.stack[s.sp.val - 1], sp := ⟨s.sp.val - 1, by omega⟩ } := by
  have hp := State.pop_ok (s := s.advancePc) h
  simp only [execRet, hp, State.finish]; rfl

/-- `RET` on an empty stack (R102). -/
theorem execRet_empty {s : State} (h : ¬ 0 < s.sp.val) :
    execRet s = .next (s.takeFault .stackUnderflow (some (encode .ret))) := by
  have hp := State.pop_empty (s := s.advancePc) h
  simp only [execRet, hp, State.finish]

/-- `CALL` with room on the stack (R104). -/
theorem execCall_ok {s : State} (h : s.sp.val < 16) (nnn : Word) :
    execCall nnn s =
      .next { s with pc := nnn, stack := s.stack.set s.sp.val (s.pc + 2), sp := ⟨s.sp.val + 1, by omega⟩ } := by
  obtain ⟨t, ht, rfl⟩ := State.push_ok (s := s.advancePc) h s.advancePc.pc
  simp only [execCall, ht, State.finish]; rfl

/-- `CALL` on a full stack (R104). -/
theorem execCall_full {s : State} (h : ¬ s.sp.val < 16) (nnn : Word) :
    execCall nnn s = .next (s.takeFault .stackOverflow (some (encode (.call nnn)))) := by
  have hp := State.push_full (s := s.advancePc) h s.advancePc.pc
  simp only [execCall, hp, State.finish]

/-- `LD B, Vx` (R143). -/
theorem execLdB_eq (x : Reg) (s : State) :
    execLdB x s =
      match accessFault s.i.toNat 3 with
      | some f => .next (s.takeFault f (some (encode (.ldB x))))
      | none => .next { s.advancePc with mem := s.mem.writeSeq s.i.toNat (decimalDigits (s.reg x)) } := by
  rw [execLdB, State.memWriteSeq_eq, decimalDigits_length]
  cases accessFault s.i.toNat 3 <;> rfl

/-- `LD [I], Vx` (R144). -/
theorem execStoreRegs_eq (x : Reg) (s : State) :
    execStoreRegs x s =
      match accessFault s.i.toNat (x.val + 1) with
      | some f => .next (s.takeFault f (some (encode (.storeRegs x))))
      | none => .next { s.advancePc with mem := s.mem.writeSeq s.i.toNat (s.regsUpTo x) } := by
  rw [execStoreRegs, State.memWriteSeq_eq, State.regsUpTo_length]
  cases accessFault s.i.toNat (x.val + 1) <;> rfl

/-- `LD Vx, [I]` (R145). -/
theorem execLoadRegs_eq (x : Reg) (s : State) :
    execLoadRegs x s =
      match accessFault s.i.toNat (x.val + 1) with
      | some f => .next (s.takeFault f (some (encode (.loadRegs x))))
      | none => .next { s.advancePc with
          v := loadSeq s.v 0 ((List.range (x.val + 1)).map fun k => s.mem.read (s.i.toNat + k)) } := by
  rw [execLoadRegs, State.memReadSeq_eq]
  cases accessFault s.i.toNat (x.val + 1) <;> rfl

/-- The draw of `n` bytes at `I` (R162). -/
def drawn (x y : Reg) (n : Nat) (s : State) : Blit :=
  Blit.rows { fb := s.fb, collision := false } (s.reg y).toNat (s.reg x).toNat
    ((List.range n).map fun k => s.mem.read (s.i.toNat + k))

/-- `DRW Vx, Vy, n` (R162). -/
theorem execDrw_eq (x y : Reg) (n : Nat) (s : State) :
    execDrw x y n s =
      match accessFault s.i.toNat n with
      | some f => .next (s.takeFault f (some (encode (.drw x y n))))
      | none => .next (State.setReg { s.advancePc with fb := (drawn x y n s).fb } Reg.vf
          (flagByte (drawn x y n s).collision)) := by
  rw [execDrw, State.memReadSeq_eq]
  cases accessFault s.i.toNat n <;> rfl

/-- `SKP Vx` for a key there is (R171). -/
theorem execSkp_ok {x : Reg} {s : State} (h : (s.reg x).toNat < 16) :
    execSkp x s = .next (s.advancePc.skipIf s.keys[(s.reg x).toNat]) := by
  simp only [execSkp, State.keyAt_ok h, State.finish]

/-- `SKP Vx` for one there is not (R170). -/
theorem execSkp_none {x : Reg} {s : State} (h : ¬ (s.reg x).toNat < 16) :
    execSkp x s = .next (s.takeFault (.keyIndexOutOfRange (s.reg x)) (some (encode (.skp x)))) := by
  simp only [execSkp, State.keyAt_none h, State.finish]

/-- `SKNP Vx` for a key there is (R172). -/
theorem execSknp_ok {x : Reg} {s : State} (h : (s.reg x).toNat < 16) :
    execSknp x s = .next (s.advancePc.skipIf (!s.keys[(s.reg x).toNat])) := by
  simp only [execSknp, State.keyAt_ok h, State.finish]

/-- `SKNP Vx` for one there is not (R170). -/
theorem execSknp_none {x : Reg} {s : State} (h : ¬ (s.reg x).toNat < 16) :
    execSknp x s = .next (s.takeFault (.keyIndexOutOfRange (s.reg x)) (some (encode (.sknp x)))) := by
  simp only [execSknp, State.keyAt_none h, State.finish]

/-- Taking back the fetch's advance gives the state before the step (R174). -/
@[simp] theorem State.advancePc_rewindPc (s : State) : s.advancePc.rewindPc = s := by
  simp [State.advancePc, State.rewindPc]

/-- `LD Vx, K` with no key pressed (R174). -/
theorem execLdVxK_none {x : Reg} {s : State} (h : ∀ k : Reg, s.keys[k.val] = false) : execLdVxK x s = .next s := by
  simp [execLdVxK, State.lowestKey_eq_none.2 h]

/-- `LD Vx, K` with `k` the lowest key pressed (R174). -/
theorem execLdVxK_some {x k : Reg} {s : State} (hk : s.keys[k.val] = true)
    (hlow : ∀ j : Reg, j < k → s.keys[j.val] = false) :
    execLdVxK x s = .next (s.advancePc.setReg x (keyByte k)) := by
  simp [execLdVxK, State.lowestKey_eq_some.2 ⟨hk, hlow⟩]

/-! ### Any instruction -/

/-- The state an instruction that completes leaves, written out. -/
def completed (i : Instr) (s : State) : State :=
  match i with
  | .nop => s.advancePc
  | .cls => { s.advancePc with fb := FrameBuffer.blank }
  | .ret => { s with pc := s.stack.getD (s.sp.val - 1) 0, sp := Fin.ofNat 17 (s.sp.val - 1) }
  | .jp nnn => s.jumpTo nnn
  | .call nnn =>
    { s with pc := nnn, stack := s.stack.setIfInBounds s.sp.val (s.pc + 2), sp := Fin.ofNat 17 (s.sp.val + 1) }
  | .seImm x kk => s.advancePc.skipIf (s.reg x == kk)
  | .sneImm x kk => s.advancePc.skipIf (s.reg x != kk)
  | .seReg x y => s.advancePc.skipIf (s.reg x == s.reg y)
  | .ldImm x kk => s.advancePc.setReg x kk
  | .addImm x kk => s.advancePc.setReg x (s.reg x + kk)
  | .ldReg x y => s.advancePc.setReg x (s.reg y)
  | .orReg x y => s.advancePc.setReg x (s.reg x ||| s.reg y)
  | .andReg x y => s.advancePc.setReg x (s.reg x &&& s.reg y)
  | .xorReg x y => s.advancePc.setReg x (s.reg x ^^^ s.reg y)
  | .addReg x y => (s.advancePc.setReg x (s.reg x + s.reg y)).setReg Reg.vf (carryFlag (s.reg x) (s.reg y))
  | .subReg x y => (s.advancePc.setReg x (s.reg x - s.reg y)).setReg Reg.vf (noBorrowFlag (s.reg x) (s.reg y))
  | .shr x _ => (s.advancePc.setReg Reg.vf (lowBitFlag (s.reg x))).shiftRight x
  | .subnReg x y => (s.advancePc.setReg x (s.reg y - s.reg x)).setReg Reg.vf (noBorrowFlag (s.reg y) (s.reg x))
  | .shl x _ => (s.advancePc.setReg Reg.vf (highBitFlag (s.reg x))).shiftLeft x
  | .sneReg x y => s.advancePc.skipIf (s.reg x != s.reg y)
  | .ldI nnn => s.advancePc.setIndex nnn
  | .jpV0 nnn => s.jumpTo (indexedTarget (s.reg 0) nnn)
  | .rnd x kk => s.advancePc.draw.2.setReg x (kk &&& Config.rand8 s.draws)
  | .drw x y n =>
    State.setReg { s.advancePc with fb := (drawn x y n s).fb } Reg.vf (flagByte (drawn x y n s).collision)
  | .skp x => s.advancePc.skipIf (s.keys.getD (s.reg x).toNat false)
  | .sknp x => s.advancePc.skipIf (!s.keys.getD (s.reg x).toNat false)
  | .ldVxDt x => s.advancePc.setReg x s.dt
  | .ldVxK x => s.lowestKey.elim s fun k => s.advancePc.setReg x (keyByte k)
  | .ldDtVx x => { s.advancePc with dt := s.reg x }
  | .ldStVx x => { s.advancePc with st := s.reg x }
  | .addI x => s.advancePc.setIndex (advancedIndex s.i (s.reg x))
  | .ldF x => s.advancePc.setIndex (glyphAddress (s.reg x))
  | .ldB x => { s.advancePc with mem := s.mem.writeSeq s.i.toNat (decimalDigits (s.reg x)) }
  | .storeRegs x => { s.advancePc with mem := s.mem.writeSeq s.i.toNat (s.regsUpTo x) }
  | .loadRegs x =>
    { s.advancePc with v := loadSeq s.v 0 ((List.range (x.val + 1)).map fun k => s.mem.read (s.i.toNat + k)) }

/-- Everything an instruction can do: take the fault `faultOf` names, or complete as written out. -/
theorem exec_eq (i : Instr) (s : State) :
    exec i s =
      match faultOf i s with
      | some f => .next (s.takeFault f (some (encode i)))
      | none => .next (completed i s) := by
  cases i with
  | ret =>
    by_cases h : s.sp.val = 0
    · simpa [exec, faultOf, h] using execRet_empty (s := s) (by omega)
    · have hlt := s.sp.isLt
      have h1 : s.sp.val - 1 < 16 := by omega
      have h2 : (s.sp.val - 1) % 17 = s.sp.val - 1 := Nat.mod_eq_of_lt (by omega)
      simp [exec, faultOf, h, execRet_ok (s := s) (by omega), completed, Vector.getD, h1, Fin.ext_iff, h2]
  | call nnn =>
    by_cases h : s.sp.val = 16
    · simpa [exec, faultOf, h] using execCall_full (s := s) (by omega) nnn
    · have hlt := s.sp.isLt
      have h1 : s.sp.val < 16 := by omega
      have h2 : (s.sp.val + 1) % 17 = s.sp.val + 1 := Nat.mod_eq_of_lt (by omega)
      have h3 : s.stack.setIfInBounds s.sp.val (s.pc + 2) = s.stack.set s.sp.val (s.pc + 2) :=
        Vector.ext fun k hk => by simp [Vector.getElem_setIfInBounds, Vector.getElem_set]
      simp [exec, faultOf, h, execCall_ok h1 nnn, completed, Fin.ext_iff, h2]
      exact h3.symm
  | skp x =>
    by_cases h : (s.reg x).toNat > 0x0F
    · simpa [exec, faultOf, h] using execSkp_none (s := s) (x := x) (by omega)
    · have h1 : (s.reg x).toNat < 16 := by omega
      simp [exec, faultOf, h, execSkp_ok h1, completed, Vector.getD, h1]
  | sknp x =>
    by_cases h : (s.reg x).toNat > 0x0F
    · simpa [exec, faultOf, h] using execSknp_none (s := s) (x := x) (by omega)
    · have h1 : (s.reg x).toNat < 16 := by omega
      simp [exec, faultOf, h, execSknp_ok h1, completed, Vector.getD, h1]
  | ldVxK x =>
    cases h : s.lowestKey <;> simp [exec, execLdVxK, faultOf, completed, h]
  | drw x y n => exact execDrw_eq x y n s
  | ldB x => exact execLdB_eq x s
  | storeRegs x => exact execStoreRegs_eq x s
  | loadRegs x => exact execLoadRegs_eq x s
  | nop | cls | jp | seImm | sneImm | seReg | sneReg | ldImm | addImm | ldReg | orReg | andReg | xorReg => rfl
  | addReg | subReg | shr | subnReg | shl | ldI | jpV0 | rnd | ldVxDt | ldDtVx | ldStVx | addI | ldF => rfl

/-- The two ways an instruction can end. -/
theorem exec_cases {i : Instr} {s t : State} (h : exec i s = .next t) :
    (∃ f, faultOf i s = some f ∧ t = s.takeFault f (some (encode i))) ∨
    (faultOf i s = none ∧ t = completed i s) := by
  rw [exec_eq] at h
  cases hf : faultOf i s with
  | some f => rw [hf] at h; injection h with h; exact .inl ⟨f, rfl, h.symm⟩
  | none => rw [hf] at h; injection h with h; exact .inr ⟨rfl, h.symm⟩

/-! ### The step cycle -/

/-- A halted core does nothing (R204). -/
theorem step_halted {s : State} {r : FaultRecord} (h : s.halted = some r) : step s = .next s := by
  simp [step, h]

/-- The fetch fails (R71, R202). -/
theorem step_fetch_fault {s : State} {f : Fault} (h : s.Running) (hf : accessFault s.pc.toNat 2 = some f) :
    step s = .next (s.takeFault f none) := by
  have hh : s.halted = none := h
  simp [step, hh, State.fetch_eq, hf]

/-- The word is no instruction (R77, R202). -/
theorem step_unknown {s : State} {e : DecodeError} (h : s.Running) (hf : accessFault s.pc.toNat 2 = none)
    (hd : decode s.wordAtPc = .error e) : step s = .next (s.takeFault .unknownOpcode (some s.wordAtPc)) := by
  have hh : s.halted = none := h
  simp [step, hh, State.fetch_eq, hf, hd]

/-- The word is an instruction (R75). -/
theorem step_exec {s : State} {i : Instr} (h : s.Running) (hf : accessFault s.pc.toNat 2 = none)
    (hd : decode s.wordAtPc = .ok i) : step s = exec i s := by
  have hh : s.halted = none := h
  simp [step, hh, State.fetch_eq, hf, hd]

/-- Everything a step can be. -/
theorem step_cases (s : State) :
    (∃ r, s.halted = some r ∧ step s = .next s) ∨
    (∃ f, s.Running ∧ accessFault s.pc.toNat 2 = some f ∧ step s = .next (s.takeFault f none)) ∨
    (s.Running ∧ accessFault s.pc.toNat 2 = none ∧ (∃ e, decode s.wordAtPc = .error e) ∧
      step s = .next (s.takeFault .unknownOpcode (some s.wordAtPc))) ∨
    (∃ i, s.Running ∧ accessFault s.pc.toNat 2 = none ∧ decode s.wordAtPc = .ok i ∧ step s = exec i s) := by
  cases hh : s.halted with
  | some r => exact .inl ⟨r, rfl, step_halted hh⟩
  | none =>
    cases hf : accessFault s.pc.toNat 2 with
    | some f => exact .inr (.inl ⟨f, hh, rfl, step_fetch_fault hh hf⟩)
    | none =>
      cases hd : decode s.wordAtPc with
      | error e => exact .inr (.inr (.inl ⟨hh, rfl, ⟨e, rfl⟩, step_unknown hh hf hd⟩))
      | ok i => exact .inr (.inr (.inr ⟨i, hh, rfl, rfl, step_exec hh hf hd⟩))

/-! ### Runs -/

/-- One more step of a run. -/
theorem steps_succ {s t : State} (h : step s = .next t) (n : Nat) : steps (n + 1) s = steps n t := by
  have h' : Sys2Proof.core.step s = .next t := h
  simp only [steps, Host.Core.run, h']
  rfl

/-- The first operation of a sequence. -/
theorem hostRun_cons {op : HostOp} {ops : List HostOp} {s t : State} {r : HostReply}
    (h : hostApply op s = .next (t, r)) : hostRun (op :: ops) s = hostRun ops t := by
  rw [hostRun, h]

end Sys2Proof.Machine
end

