-- ==== Sys2Proof/Laws/PerInstr.lean ====
section
/-! SUPPORT. Statements for all instructions, one lemma per constructor: decoding the word of a well-formed instruction
gives it back (spec/30_encoding.md R72, R74, R76). -/

namespace Sys2Proof.Laws.DecodeEncode

/-- Decoding the word of a well-formed instruction gives it back. -/
def Statement (i : Instr) : Prop := i.wellFormed = true → decode (encode i) = .ok i

/-! ### The fields of a word built by each format -/

theorem wordNnn_toNat {op : Nat} (h : op < 16) (nnn : Word) : (wordNnn op nnn).toNat = op * 4096 + nnn.toNat % 4096 := by
  simp only [wordNnn, BitVec.toNat_ofNat]; omega

theorem wordXkk_toNat {op : Nat} (h : op < 16) (x : Reg) (kk : Byte) :
    (wordXkk op x kk).toNat = op * 4096 + x.val * 256 + kk.toNat := by
  have := x.isLt; have := kk.isLt
  simp only [wordXkk, BitVec.toNat_ofNat]; omega

theorem wordXyn_toNat {op : Nat} (h : op < 16) (x y : Reg) (n : Nat) :
    (wordXyn op x y n).toNat = op * 4096 + x.val * 256 + y.val * 16 + n % 16 := by
  have := x.isLt; have := y.isLt
  simp only [wordXyn, BitVec.toNat_ofNat]; omega

theorem wordNnn_d1 {op : Nat} (h : op < 16) (nnn : Word) : fieldD1 (wordNnn op nnn) = op := by
  simp only [fieldD1, slice, wordNnn_toNat h]; omega

theorem wordXkk_d1 {op : Nat} (h : op < 16) (x : Reg) (kk : Byte) : fieldD1 (wordXkk op x kk) = op := by
  have := x.isLt; have := kk.isLt
  simp only [fieldD1, slice, wordXkk_toNat h]; omega

theorem wordXyn_d1 {op : Nat} (h : op < 16) (x y : Reg) (n : Nat) : fieldD1 (wordXyn op x y n) = op := by
  have := x.isLt; have := y.isLt
  simp only [fieldD1, slice, wordXyn_toNat h]; omega

theorem wordNnn_nnn {op : Nat} (h : op < 16) {nnn : Word} (hn : fitsAddress nnn = true) :
    fieldNnn (wordNnn op nnn) = nnn := by
  have hn' : nnn.toNat < 4096 := by simpa [fitsAddress] using hn
  apply BitVec.eq_of_toNat_eq
  simp only [fieldNnn, slice, wordNnn_toNat h, BitVec.toNat_ofNat]; omega

theorem wordXkk_x {op : Nat} (h : op < 16) (x : Reg) (kk : Byte) : fieldX (wordXkk op x kk) = x := by
  have := x.isLt; have := kk.isLt
  apply Fin.ext
  simp only [fieldX, slice, wordXkk_toNat h, Fin.val_ofNat]; omega

theorem wordXkk_low {op : Nat} (h : op < 16) (x : Reg) (kk : Byte) : slice (wordXkk op x kk) 7 0 = kk.toNat := by
  have := x.isLt; have := kk.isLt
  simp only [slice, wordXkk_toNat h]; omega

theorem wordXkk_kk {op : Nat} (h : op < 16) (x : Reg) (kk : Byte) : fieldKk (wordXkk op x kk) = kk := by
  apply BitVec.eq_of_toNat_eq
  have := kk.isLt
  simp only [fieldKk, wordXkk_low h, BitVec.toNat_ofNat]; omega

theorem wordXyn_x {op : Nat} (h : op < 16) (x y : Reg) (n : Nat) : fieldX (wordXyn op x y n) = x := by
  have := x.isLt; have := y.isLt
  apply Fin.ext
  simp only [fieldX, slice, wordXyn_toNat h, Fin.val_ofNat]; omega

theorem wordXyn_y {op : Nat} (h : op < 16) (x y : Reg) (n : Nat) : fieldY (wordXyn op x y n) = y := by
  have := x.isLt; have := y.isLt
  apply Fin.ext
  simp only [fieldY, slice, wordXyn_toNat h, Fin.val_ofNat]; omega

theorem wordXyn_n {op : Nat} (h : op < 16) (x y : Reg) (n : Nat) : fieldN (wordXyn op x y n) = n % 16 := by
  have := x.isLt; have := y.isLt
  simp only [fieldN, slice, wordXyn_toNat h]; omega

/-! ### One lemma per instruction -/

theorem nop : Statement (.nop) := fun _ => by decide

theorem cls : Statement (.cls) := fun _ => by decide

theorem ret : Statement (.ret) := fun _ => by decide

theorem jp (nnn : Word) : Statement (.jp nnn) := fun h => by
  have hn : fitsAddress nnn = true := h
  simp [encode, decode, wordNnn_d1, wordNnn_nnn _ hn]

theorem call (nnn : Word) : Statement (.call nnn) := fun h => by
  have hn : fitsAddress nnn = true := h
  simp [encode, decode, wordNnn_d1, wordNnn_nnn _ hn]

theorem seImm (x : Reg) (kk : Byte) : Statement (.seImm x kk) := fun _ => by
  simp [encode, decode, wordXkk_d1, wordXkk_x, wordXkk_kk]

theorem sneImm (x : Reg) (kk : Byte) : Statement (.sneImm x kk) := fun _ => by
  simp [encode, decode, wordXkk_d1, wordXkk_x, wordXkk_kk]

theorem seReg (x : Reg) (y : Reg) : Statement (.seReg x y) := fun _ => by
  simp [encode, decode, wordXyn_d1, wordXyn_x, wordXyn_y, wordXyn_n]

theorem ldImm (x : Reg) (kk : Byte) : Statement (.ldImm x kk) := fun _ => by
  simp [encode, decode, wordXkk_d1, wordXkk_x, wordXkk_kk]

theorem addImm (x : Reg) (kk : Byte) : Statement (.addImm x kk) := fun _ => by
  simp [encode, decode, wordXkk_d1, wordXkk_x, wordXkk_kk]

theorem ldReg (x : Reg) (y : Reg) : Statement (.ldReg x y) := fun _ => by
  simp [encode, decode, wordXyn_d1, wordXyn_x, wordXyn_y, wordXyn_n]

theorem orReg (x : Reg) (y : Reg) : Statement (.orReg x y) := fun _ => by
  simp [encode, decode, wordXyn_d1, wordXyn_x, wordXyn_y, wordXyn_n]

theorem andReg (x : Reg) (y : Reg) : Statement (.andReg x y) := fun _ => by
  simp [encode, decode, wordXyn_d1, wordXyn_x, wordXyn_y, wordXyn_n]

theorem xorReg (x : Reg) (y : Reg) : Statement (.xorReg x y) := fun _ => by
  simp [encode, decode, wordXyn_d1, wordXyn_x, wordXyn_y, wordXyn_n]

theorem addReg (x : Reg) (y : Reg) : Statement (.addReg x y) := fun _ => by
  simp [encode, decode, wordXyn_d1, wordXyn_x, wordXyn_y, wordXyn_n]

theorem subReg (x : Reg) (y : Reg) : Statement (.subReg x y) := fun _ => by
  simp [encode, decode, wordXyn_d1, wordXyn_x, wordXyn_y, wordXyn_n]

theorem shr (x : Reg) (y : Reg) : Statement (.shr x y) := fun _ => by
  simp [encode, decode, wordXyn_d1, wordXyn_x, wordXyn_y, wordXyn_n]

theorem subnReg (x : Reg) (y : Reg) : Statement (.subnReg x y) := fun _ => by
  simp [encode, decode, wordXyn_d1, wordXyn_x, wordXyn_y, wordXyn_n]

theorem shl (x : Reg) (y : Reg) : Statement (.shl x y) := fun _ => by
  simp [encode, decode, wordXyn_d1, wordXyn_x, wordXyn_y, wordXyn_n]

theorem sneReg (x : Reg) (y : Reg) : Statement (.sneReg x y) := fun _ => by
  simp [encode, decode, wordXyn_d1, wordXyn_x, wordXyn_y, wordXyn_n]

theorem ldI (nnn : Word) : Statement (.ldI nnn) := fun h => by
  have hn : fitsAddress nnn = true := h
  simp [encode, decode, wordNnn_d1, wordNnn_nnn _ hn]

theorem jpV0 (nnn : Word) : Statement (.jpV0 nnn) := fun h => by
  have hn : fitsAddress nnn = true := h
  simp [encode, decode, wordNnn_d1, wordNnn_nnn _ hn]

theorem rnd (x : Reg) (kk : Byte) : Statement (.rnd x kk) := fun _ => by
  simp [encode, decode, wordXkk_d1, wordXkk_x, wordXkk_kk]

theorem drw (x : Reg) (y : Reg) (n : Nat) : Statement (.drw x y n) := fun h => by
  have hn : n < 16 := by simpa [Instr.wellFormed, fitsHeight] using h
  simp [encode, decode, wordXyn_d1, wordXyn_x, wordXyn_y, wordXyn_n, Nat.mod_eq_of_lt hn]

theorem skp (x : Reg) : Statement (.skp x) := fun _ => by
  simp [encode, decode, wordXkk_d1, wordXkk_x, wordXkk_low]

theorem sknp (x : Reg) : Statement (.sknp x) := fun _ => by
  simp [encode, decode, wordXkk_d1, wordXkk_x, wordXkk_low]

theorem ldVxDt (x : Reg) : Statement (.ldVxDt x) := fun _ => by
  simp [encode, decode, wordXkk_d1, wordXkk_x, wordXkk_low]

theorem ldVxK (x : Reg) : Statement (.ldVxK x) := fun _ => by
  simp [encode, decode, wordXkk_d1, wordXkk_x, wordXkk_low]

theorem ldDtVx (x : Reg) : Statement (.ldDtVx x) := fun _ => by
  simp [encode, decode, wordXkk_d1, wordXkk_x, wordXkk_low]

theorem ldStVx (x : Reg) : Statement (.ldStVx x) := fun _ => by
  simp [encode, decode, wordXkk_d1, wordXkk_x, wordXkk_low]

theorem addI (x : Reg) : Statement (.addI x) := fun _ => by
  simp [encode, decode, wordXkk_d1, wordXkk_x, wordXkk_low]

theorem ldF (x : Reg) : Statement (.ldF x) := fun _ => by
  simp [encode, decode, wordXkk_d1, wordXkk_x, wordXkk_low]

theorem ldB (x : Reg) : Statement (.ldB x) := fun _ => by
  simp [encode, decode, wordXkk_d1, wordXkk_x, wordXkk_low]

theorem storeRegs (x : Reg) : Statement (.storeRegs x) := fun _ => by
  simp [encode, decode, wordXkk_d1, wordXkk_x, wordXkk_low]

theorem loadRegs (x : Reg) : Statement (.loadRegs x) := fun _ => by
  simp [encode, decode, wordXkk_d1, wordXkk_x, wordXkk_low]

end Sys2Proof.Laws.DecodeEncode
end

