-- ==== Sys2Proof/Tests/Slice0.lean ====
section
/-! SUPPORT. The model's own tests: ill-formed terms the check refuses, words written out from the spec's encodings, the
spec's vectors one step at a time, and a witness for the hypotheses of each obligation.
T<n> and E<n> are the vectors of spec/95_test_vectors.md; the other expected values are worked out from the rule cited. -/

namespace Sys2Proof.Machine

/-- `s` with `I`. -/
def State.withI (s : State) (i : Word) : State := { s with i := i }

/-- `s` with `pc`. -/
def State.withPc (s : State) (pc : Word) : State := { s with pc := pc }

end Sys2Proof.Machine

namespace Sys2Proof.Tests

open Sys2Proof Sys2Proof.Machine

/-! ### Helpers -/

/-- The state after one step that fetches the word `w` from `s`. -/
def after (w : Nat) (s : State) : Option State := stateOf (step (s.withFetchWord 16 w))

/-- The reset state with these registers. -/
def regs (l : List (Reg × Byte)) : State := l.foldl (fun s p => s.setReg p.1 p.2) State.reset

/-- The reset state with `n` entries 0x0111 on the stack. -/
def stacked (n : Fin 17) : State := { State.reset with sp := n, stack := Vector.replicate 16 0x0111 }

/-- The reset state with key `k` pressed, `V[3] = b`. -/
def pressing (k : Nat) (b : Byte) : State := (regs [(3, b)]).writeKey k true

/-- The reset state with cell (`row`, `col`) lit. -/
def lit (row : Fin 32) (col : Fin 64) : State := { State.reset with fb := FrameBuffer.blank.toggle row col }

/-- The registers listed, and `pc`, after one step. -/
def see (l : List Reg) (t : Option State) : Option (List Byte × Word) := t.map fun u => (l.map u.reg, u.pc)

/-- The bytes of memory at the addresses listed, and `I`, after one step. -/
def seeMem (l : List Nat) (t : Option State) : Option (List Byte × Word) := t.map fun u => (l.map u.mem.read, u.i)

/-- The cells of one row at the columns listed, and VF, after one step. -/
def seeCells (row : Fin 32) (l : List (Fin 64)) (t : Option State) : Option (List Bool × Byte) :=
  t.map fun u => (l.map (u.fb.cell row), u.reg Reg.vf)

/-- The fault record `(code, pc_insn, ir, info)` after one step (R201). -/
def seeFault (t : Option State) : Option (Nat × Word × Option Word × Option Nat) :=
  t.bind fun u => u.halted.map fun r => (r.code, r.pcInsn, r.ir, r.info)

/-! ### Well-formed instructions: each check refuses an ill-formed term (R72, R74) -/

theorem test_wf_jp : (Instr.jp 0x1000).wellFormed = false ∧ (Instr.jp 0xFFF).wellFormed = true := by decide
theorem test_wf_call : (Instr.call 0x1000).wellFormed = false ∧ (Instr.call 0xFFF).wellFormed = true := by decide
theorem test_wf_ldI : (Instr.ldI 0xF000).wellFormed = false ∧ (Instr.ldI 0xFFF).wellFormed = true := by decide
theorem test_wf_jpV0 : (Instr.jpV0 0x1000).wellFormed = false ∧ (Instr.jpV0 0xFFF).wellFormed = true := by decide
theorem test_wf_drw : (Instr.drw 0 0 16).wellFormed = false ∧ (Instr.drw 0 0 15).wellFormed = true := by decide

/-! ### Decoding: words written out from the encodings of spec/30_encoding.md R74, R81 (formats O, NNN, XKK, XYN) -/

theorem test_decode_fixed :
    decodeTableWord 16 0x0000 = some .nop ∧ decodeTableWord 16 0x00E0 = some .cls ∧
    decodeTableWord 16 0x00EE = some .ret := by decide

theorem test_decode_nnn :
    decodeTableWord 16 0b0001_101010111100 = some (.jp 0xABC) ∧
    decodeTableWord 16 0b0010_101010111100 = some (.call 0xABC) ∧
    decodeTableWord 16 0b1010_001100000001 = some (.ldI 0x301) ∧
    decodeTableWord 16 0b1011_111111111110 = some (.jpV0 0xFFE) := by decide

theorem test_decode_xkk :
    decodeTableWord 16 0b0011_0011_01000010 = some (.seImm 3 0x42) ∧
    decodeTableWord 16 0b0100_0011_01000010 = some (.sneImm 3 0x42) ∧
    decodeTableWord 16 0b0110_1010_01011011 = some (.ldImm 0xA 0x5B) ∧
    decodeTableWord 16 0b0111_0001_11111110 = some (.addImm 1 0xFE) ∧
    decodeTableWord 16 0b1100_0011_00001111 = some (.rnd 3 0x0F) := by decide

theorem test_decode_xy :
    decodeTableWord 16 0b0101_0001_0010_0000 = some (.seReg 1 2) ∧
    decodeTableWord 16 0b1001_0001_0010_0000 = some (.sneReg 1 2) ∧
    decodeTableWord 16 0b1101_0001_0010_0011 = some (.drw 1 2 3) := by decide

theorem test_decode_alu :
    decodeTableWord 16 0b1000_0001_0010_0000 = some (.ldReg 1 2) ∧
    decodeTableWord 16 0b1000_0001_0010_0001 = some (.orReg 1 2) ∧
    decodeTableWord 16 0b1000_0001_0010_0010 = some (.andReg 1 2) ∧
    decodeTableWord 16 0b1000_0001_0010_0011 = some (.xorReg 1 2) ∧
    decodeTableWord 16 0b1000_0001_0010_0100 = some (.addReg 1 2) ∧
    decodeTableWord 16 0b1000_0001_0010_0101 = some (.subReg 1 2) ∧
    decodeTableWord 16 0b1000_0001_0010_0110 = some (.shr 1 2) ∧
    decodeTableWord 16 0b1000_0001_0010_0111 = some (.subnReg 1 2) ∧
    decodeTableWord 16 0b1000_0001_0010_1110 = some (.shl 1 2) := by decide

theorem test_decode_keys_timers :
    decodeTableWord 16 0b1110_0111_10011110 = some (.skp 7) ∧
    decodeTableWord 16 0b1110_0111_10100001 = some (.sknp 7) ∧
    decodeTableWord 16 0b1111_0111_00000111 = some (.ldVxDt 7) ∧
    decodeTableWord 16 0b1111_0111_00001010 = some (.ldVxK 7) ∧
    decodeTableWord 16 0b1111_0111_00010101 = some (.ldDtVx 7) ∧
    decodeTableWord 16 0b1111_0111_00011000 = some (.ldStVx 7) := by decide

theorem test_decode_index :
    decodeTableWord 16 0b1111_0111_00011110 = some (.addI 7) ∧
    decodeTableWord 16 0b1111_0111_00101001 = some (.ldF 7) ∧
    decodeTableWord 16 0b1111_0111_00110011 = some (.ldB 7) ∧
    decodeTableWord 16 0b1111_0111_01010101 = some (.storeRegs 7) ∧
    decodeTableWord 16 0b1111_0111_01100101 = some (.loadRegs 7) := by decide

/-- T2 to T12: reserved words are refused by name. -/
theorem test_decode_refuses :
    ([0x5121, 0x0123, 0x0001, 0x00E1, 0x8008, 0x800F, 0x9111, 0xE0FF, 0xE000, 0xF0FF, 0xF000] : List Word).map decode =
      [0x5121, 0x0123, 0x0001, 0x00E1, 0x8008, 0x800F, 0x9111, 0xE0FF, 0xE000, 0xF0FF, 0xF000].map
        fun w => .error (.unknownOpcode w) := by rfl

/-- An instruction needs two bytes (R70). -/
theorem test_decode_truncated : decodeBytes [0x12] = .error .truncated ∧ decodeBytes [] = .error .truncated :=
  ⟨rfl, rfl⟩

/-- The bytes after an instruction are left over (R57, R70). -/
theorem test_decode_rest : decodeBytes [0x6A, 0x5B, 0x00] = .ok (.ldImm 0xA 0x5B, [0x00]) := rfl

/-- No two rows of the opcode table cover one word: they differ on a bit both fix (R76). -/
theorem test_rows_disjoint :
    opcodeRows.length = 35 ∧
    opcodeRows.Pairwise (fun r q => (r.value &&& (r.mask &&& q.mask)) ≠ (q.value &&& (r.mask &&& q.mask))) := by decide

/-! ### Control flow (spec/40_control_flow.md) -/

/-- T1. -/
theorem test_nop : (after 0x0000 State.reset).map (fun t => (t.pc, t.v, t.halted)) =
    some (0x202, State.reset.v, none) := by decide

/-- T20, and T21: no fault at the jump. -/
theorem test_jp : (after 0x1ABC State.reset).map State.pc = some 0xABC ∧
    (after 0x1FFF State.reset).map (fun t => (t.pc, t.halted)) = some (0xFFF, none) := by decide

/-- T22. -/
theorem test_call : (after 0x2ABC State.reset).map (fun t => (t.pc, t.sp.val, t.stack[0])) = some (0xABC, 1, 0x202) := by
  decide

/-- T23: the pushed value is not checked; T24: the stack is full. -/
theorem test_call_edges :
    (after 0x2ABC (State.reset.withPc 0xFFE)).map (fun t => t.stack[0]) = some 0x1000 ∧
    seeFault (after 0x2ABC (stacked 16)) = some (2, 0x200, some 0x2ABC, none) ∧
    (after 0x2ABC (stacked 16)).map (fun t => (t.pc, t.sp.val)) = some (0x200, 16) := by decide

/-- T26: the entry is left in place. -/
theorem test_ret : (after 0x00EE { (stacked 1).withPc 0xABC with stack := Vector.replicate 16 0x202 }).map
    (fun t => (t.pc, t.sp.val, t.stack[0])) = some (0x202, 0, 0x202) := by decide

/-- T25. -/
theorem test_ret_empty : seeFault (after 0x00EE State.reset) = some (3, 0x200, some 0x00EE, none) := by decide

/-- T27, T28. -/
theorem test_seImm : (after 0x3342 (regs [(3, 0x42)])).map State.pc = some 0x204 ∧
    (after 0x3343 (regs [(3, 0x42)])).map State.pc = some 0x202 := by decide

/-- T29, T30. -/
theorem test_sneImm : (after 0x4342 (regs [(3, 0x42)])).map State.pc = some 0x202 ∧
    (after 0x4300 (regs [(3, 0x42)])).map State.pc = some 0x204 := by decide

/-- T31, and R107 with unequal registers. -/
theorem test_seReg : (after 0x5120 (regs [(1, 9), (2, 9)])).map State.pc = some 0x204 ∧
    (after 0x5120 (regs [(1, 9), (2, 8)])).map State.pc = some 0x202 := by decide

/-- T33, T34. -/
theorem test_sneReg : (after 0x9110 State.reset).map State.pc = some 0x202 ∧
    (after 0x9120 (regs [(1, 1), (2, 2)])).map State.pc = some 0x204 := by decide

/-- T35, T36: `nnn` and the sum are not masked to 12 bits. -/
theorem test_jpV0 : (after 0xB300 (regs [(0, 0x10)])).map State.pc = some 0x310 ∧
    (after 0xBFFF (regs [(0, 0xFF)])).map State.pc = some 0x10FE := by decide

/-- T37: the skip over the end of memory is not checked; the next step faults. -/
theorem test_skip_past_the_end : (after 0x3342 ((regs [(3, 0x42)]).withPc 0xFFE)).map State.pc = some 0x1002 ∧
    seeFault (stateOf (step (State.reset.withPc 0x1002))) = some (4, 0x1002, none, some 0x1002) := by decide

/-! ### The ALU (spec/41_alu.md) -/

/-- T40. -/
theorem test_ldImm : see [0xA] (after 0x6A5B State.reset) = some ([0x5B], 0x202) := by decide

/-- T41, T42. -/
theorem test_addImm : see [0, 15] (after 0x70FF (regs [(15, 7)])) = some ([0xFF, 7], 0x202) ∧
    see [15] (after 0x7FFF (regs [(15, 1)])) = some ([0], 0x202) := by decide

/-- T43. -/
theorem test_ldReg : see [0] (after 0x8010 (regs [(1, 0x3C)])) = some ([0x3C], 0x202) := by decide

/-- T44, T45, T46. -/
theorem test_logic :
    see [0, 15] (after 0x8011 (regs [(0, 0xF0), (1, 0x0F), (15, 0x55)])) = some ([0xFF, 0x55], 0x202) ∧
    see [0, 15] (after 0x8012 (regs [(0, 0xF0), (1, 0x3C), (15, 0x55)])) = some ([0x30, 0x55], 0x202) ∧
    see [0, 15] (after 0x8013 (regs [(0, 0xFF), (1, 0x0F), (15, 0x55)])) = some ([0xF0, 0x55], 0x202) := by decide

/-- T47, T50. -/
theorem test_addReg : see [0, 15] (after 0x8014 (regs [(0, 0xFF), (1, 1)])) = some ([0, 1], 0x202) ∧
    see [0, 15] (after 0x8014 (regs [(0, 0x0A), (1, 5)])) = some ([0x0F, 0], 0x202) := by decide

/-- T51: the flag is written last; T53: `y = F` is read before VF is written. -/
theorem test_addReg_vf : see [15] (after 0x8F14 (regs [(15, 0xFF), (1, 2)])) = some ([1], 0x202) ∧
    see [0, 15] (after 0x80F4 (regs [(0, 1), (15, 0xFF)])) = some ([0, 1], 0x202) := by decide

/-- T54, T55. -/
theorem test_subReg : see [0, 15] (after 0x8015 (regs [(0, 5), (1, 5)])) = some ([0, 1], 0x202) ∧
    see [0, 15] (after 0x8015 (regs [(1, 1)])) = some ([0xFF, 0], 0x202) := by decide

/-- T58: `y` is not read; T59: with x = 0xF the flag is shifted in place. -/
theorem test_shr : see [0, 15] (after 0x8016 (regs [(0, 2), (1, 0xFF)])) = some ([1, 0], 0x202) ∧
    see [15] (after 0x8F06 (regs [(15, 3)])) = some ([0], 0x202) := by decide

/-- T60, T61. -/
theorem test_subnReg : see [0, 15] (after 0x8017 (regs [(0, 7), (1, 5)])) = some ([0xFE, 0], 0x202) ∧
    see [0, 15] (after 0x8017 (regs [(0, 5), (1, 5)])) = some ([0, 1], 0x202) := by decide

/-- T63, T65. -/
theorem test_shl : see [0, 15] (after 0x800E (regs [(0, 0x81)])) = some ([2, 1], 0x202) ∧
    see [15] (after 0x8F0E (regs [(15, 0x81)])) = some ([2], 0x202) := by decide

/-- T67 with the draw left free: the mask is applied, and the draw is counted. -/
theorem test_rnd : (after 0xC30F State.reset).map (fun t => (t.reg 3, t.draws, t.pc)) =
    some (0x0F &&& Config.rand8 0, 1, 0x202) := rfl

/-- T68: `C300` gives 0 for every draw. -/
theorem test_rnd_zero : (after 0xC300 State.reset).map (fun t => t.reg 3) = some 0 :=
  congrArg some (BitVec.zero_and (x := Config.rand8 0))

/-! ### The address register and memory (spec/42_index_memory.md) -/

/-- T70. -/
theorem test_ldI : (after 0xA300 State.reset).map State.i = some 0x300 := by decide

/-- T72, T73. -/
theorem test_addI : (after 0xF01E ((regs [(0, 1)]).withI 0xFFFF)).map State.i = some 0 ∧
    (after 0xF01E ((regs [(0, 1), (15, 0x55)]).withI 0xFFF)).map (fun t => (t.i, t.reg 15)) = some (0x1000, 0x55) := by decide

/-- T75, T76. -/
theorem test_ldF : (after 0xF029 (regs [(0, 0x0F)])).map State.i = some 0x4B ∧
    (after 0xF029 (regs [(0, 0xFF)])).map State.i = some 0x4FB := by decide

/-- T77, T80. -/
theorem test_ldB : seeMem [0x300, 0x301, 0x302] (after 0xF033 ((regs [(0, 0xFE)]).withI 0x300)) = some ([2, 5, 4], 0x300) ∧
    seeMem [0xFFD, 0xFFE, 0xFFF] (after 0xF033 ((regs [(0, 0x0A)]).withI 0xFFD)) = some ([0, 1, 0], 0xFFD) := by decide

/-- T81. -/
theorem test_ldB_out : seeFault (after 0xF033 ((regs [(0, 0x0A)]).withI 0xFFE)) = some (4, 0x200, some 0xF033, some 0x1000) ∧
    seeMem [0xFFE, 0xFFF] (after 0xF033 ((regs [(0, 0x0A)]).withI 0xFFE)) = some ([0, 0], 0xFFE) := by decide

/-- T83. -/
theorem test_storeRegs : seeMem [0x300, 0x301, 0x302, 0x303]
    (after 0xF255 ((regs [(0, 1), (1, 2), (2, 3), (3, 4)]).withI 0x300)) = some ([1, 2, 3, 0], 0x300) := by decide

/-- T84. -/
theorem test_storeRegs_out :
    seeFault (after 0xF355 ((regs [(0, 9), (1, 9), (2, 9), (3, 9)]).withI 0xFFE)) =
      some (4, 0x200, some 0xF355, some 0x1000) ∧
    seeMem [0xFFE, 0xFFF] (after 0xF355 ((regs [(0, 9), (1, 9)]).withI 0xFFE)) = some ([0, 0], 0xFFE) := by decide

/-- T86, with the default `FONT` (log 1). -/
theorem test_loadRegs : see [0, 1, 2, 3, 4, 5, 6, 7, 8, 9, 10, 11, 12, 13, 14, 15] (after 0xFF65 State.reset) =
    some ([0xF0, 0x90, 0x90, 0x90, 0xF0, 0x20, 0x60, 0x20, 0x20, 0x70, 0xF0, 0x10, 0xF0, 0x80, 0xF0, 0xF0], 0x202) := by
  decide

/-- T87. -/
theorem test_loadRegs_out : seeFault (after 0xFF65 ((regs [(5, 0x77)]).withI 0xFF8)) =
    some (4, 0x200, some 0xFF65, some 0x1000) ∧
    see [5] (after 0xFF65 ((regs [(5, 0x77)]).withI 0xFF8)) = some ([0x77], 0x200) := by decide

/-- Memory is canonical after a store, and writing a byte back removes its entry (log 2). -/
theorem test_memory_canonical : (Memory.write (Memory.write [] 0x300 7) 0x300 0) = [] ∧
    Memory.write (Memory.write [] 0x301 7) 0x300 9 = [(0x300, 9), (0x301, 7)] ∧
    Memory.write [] 0x000 0xF0 = [] := by decide

/-! ### The display (spec/43_display.md) -/

/-- T90. -/
theorem test_cls : seeCells 0 [0, 5] (after 0x00E0 (lit 0 5)) = some ([false, false], 0) := by decide

/-- T91, the top row of glyph 0, and T95: a lit pixel turned off. -/
theorem test_drw : seeCells 0 [0, 1, 2, 3, 4, 5, 6, 7] (after 0xD005 State.reset) =
      some ([true, true, true, true, false, false, false, false], 0) ∧
    seeCells 0 [0, 1, 2, 3, 4] (after 0xD001 (lit 0 0)) = some ([false, true, true, true, false], 1) := by decide

/-- T94: the origin is read before VF is written; T98: nothing is drawn, although two rows are in range. -/
theorem test_drw_edges : seeCells 28 [59, 60, 63, 0] (after 0xDFF1 (regs [(15, 0x3C)])) =
      some ([false, true, true, false], 0) ∧
    seeFault (after 0xD003 (State.reset.withI 0xFFE)) = some (4, 0x200, some 0xD003, some 0x1000) ∧
    (after 0xD003 (State.reset.withI 0xFFE)).map State.fb = some FrameBuffer.blank := by decide

/-! ### Keys and timers (spec/44_timers_keys.md) -/

/-- T100, T101. -/
theorem test_skp : (after 0xE39E (pressing 5 5)).map State.pc = some 0x204 ∧
    (after 0xE39E (regs [(3, 5)])).map State.pc = some 0x202 := by decide

/-- T104. -/
theorem test_skp_out : seeFault (after 0xE39E (regs [(3, 0x10)])) = some (5, 0x200, some 0xE39E, some 0x10) := by decide

/-- T102, T103. -/
theorem test_sknp : (after 0xE3A1 (regs [(3, 5)])).map State.pc = some 0x204 ∧
    (after 0xE3A1 (pressing 5 5)).map State.pc = some 0x202 := by decide

/-- T105. -/
theorem test_sknp_out : seeFault (after 0xE3A1 (regs [(3, 0xFF)])) = some (5, 0x200, some 0xE3A1, some 0xFF) := by decide

/-- T106, T107. -/
theorem test_ldVxK : see [3] (after 0xF30A State.reset) = some ([0], 0x200) ∧
    see [3] (after 0xF30A ((pressing 9 0).writeKey 5 true)) = some ([5], 0x202) := by decide

/-- T109. -/
theorem test_ldVxDt : see [5] (after 0xF507 { State.reset with dt := 0x3C }) = some ([0x3C], 0x202) := by decide

/-- T110. -/
theorem test_ldDtVx : (after 0xF015 (regs [(0, 0x3C)])).map State.dt = some 0x3C := by decide

/-- T111. -/
theorem test_ldStVx : (after 0xF018 (regs [(0, 1)])).map State.st = some 1 := by decide

/-! ### The step cycle and the host's operations (spec/60_exceptions.md, 70_reset_and_hazards.md) -/

/-- T2, T15: an unknown word, and a fetch whose second byte is outside memory. -/
theorem test_step_faults : seeFault (after 0x5121 State.reset) = some (1, 0x200, some 0x5121, none) ∧
    seeFault (stateOf (step (State.reset.withPc 0xFFF))) = some (4, 0xFFF, none, some 0x1000) := by decide

/-- T16: an odd `pc` fetches normally; high byte first (R57). -/
theorem test_step_odd_pc : see [0] (stateOf (step { State.reset.withPc 0x201 with mem := [(0x201, 0x60), (0x202, 7)] })) =
    some ([7], 0x203) := by decide

/-- T112, third tick: the edge, and both timers stop at 0. -/
theorem test_tick : let s := { State.reset with dt := 0, st := 1 }
    (s.toneEdge, s.tickTimers.dt, s.tickTimers.st, s.tickTimers.toneEdge) = (true, 0, 0, false) := by decide

/-- T115. -/
theorem test_keys : (State.reset.writeKey 7 true).keys[7] = true ∧
    ((State.reset.writeKey 7 true).writeKey 7 false).keys[7] = false ∧
    State.reset.writeKey 16 true = State.reset := by decide

/-- T122. -/
theorem test_load : let t := (regs [(3, 7)]).load [0xAB]
    (t.mem.read 0x200, t.mem.read 0x201, t.reg 3) = (0xAB, 0, 7) := by decide

/-- R54 with log 1: the ends of the font, and the byte above it. -/
theorem test_font : State.reset.mem.read 0x000 = 0xF0 ∧ State.reset.mem.read 0x04F = 0x80 ∧
    State.reset.mem.read 0x050 = 0 := by decide

/-! ### Witnesses: for each obligation with hypotheses, states and operands that meet all of them, each clause at a
boundary of its range -/

/-- The reset state with the word `w` at 0x200. -/
def holding (w : Nat) : State := State.reset.withFetchWord 16 w

/-- A fault record to be halted with. -/
def someFault : FaultRecord := { fault := .unknownOpcode, pcInsn := 0x200, ir := some 0x5121 }

theorem witness_ResetMemoryHoldsFontAndTail : let font := Vector.replicate 80 0xA5; let tail := Vector.replicate 4016 0x5A
    (∃ u, u = create font tail) ∧ ∃ u, hostApply (.reset font tail) State.reset = .next (u, .done) := ⟨⟨_, rfl⟩, _, rfl⟩

theorem witness_StepKeepsMemoryCanonical : (holding 0x5121).mem.wf ∧ ∃ t, step (holding 0x5121) = .next t :=
  ⟨by decide, _, rfl⟩

/-- The bounds themselves: `pc = 0x10FE`, an entry 0x1000. -/
theorem witness_StepKeepsPcBounded :
    let s : State := { State.reset.withPc 0x10FE with stack := Vector.replicate 16 0x1000 }
    s.PcBounded ∧ ∃ t, step s = .next t := ⟨by decide, _, rfl⟩

theorem witness_DecodeOfEncodeIsIdentity :
    (Instr.jp 0xFFF).wellFormed = true ∧ (Instr.drw 15 15 15).wellFormed = true := by decide

theorem witness_EncodeOfDecodeIsIdentity :
    decode 0x1FFF = .ok (.jp 0xFFF) ∧ decode 0xDFFF = .ok (.drw 15 15 15) := ⟨rfl, rfl⟩

theorem witness_DecoderAcceptsExactlyTheTable :
    decode 0x5120 = .ok (.seReg 1 2) ∧ decode 0x5121 = .error (.unknownOpcode 0x5121) := ⟨rfl, rfl⟩

/-- The last `pc` a fetch reads two bytes at. -/
theorem witness_StepRunsTheDecodedInstruction :
    let s : State := { State.reset.withPc 0xFFE with mem := [(0xFFE, 0x12), (0xFFF, 0x34)] }
    s.Running ∧ s.pc.toNat ≤ 0xFFE ∧
      decode (wordOfBytes (s.mem.read s.pc.toNat) (s.mem.read (s.pc.toNat + 1))) = .ok (.jp 0x234) :=
  ⟨rfl, by decide, rfl⟩

theorem witness_FetchOutsideMemoryHalts : (State.reset.withPc 0xFFF).Running ∧
    (State.reset.withPc 0xFFF).pc.toNat > 0xFFE ∧ (State.reset.withPc 0x10FE).pc.toNat > 0xFFE := by decide

theorem witness_UnknownWordHalts : (holding 0x0001).Running ∧ (holding 0x0001).pc.toNat ≤ 0xFFE ∧
    ∀ r ∈ opcodeRows, r.covers (holding 0x0001).wordAtPc = false := by decide

/-- Each condition of R200 on both sides of its boundary. -/
theorem witness_InstructionsFaultExactlyWhenTheTableSays :
    (faultOf .ret (stacked 0), faultOf .ret (stacked 1)) = (some .stackUnderflow, none) ∧
    (faultOf (.call 0) (stacked 16), faultOf (.call 0) (stacked 15)) = (some .stackOverflow, none) ∧
    (faultOf (.ldB 0) (State.reset.withI 0xFFE), faultOf (.ldB 0) (State.reset.withI 0xFFD)) =
      (some (.memoryOutOfRange 0x1000), none) ∧
    (faultOf (.storeRegs 15) (State.reset.withI 0xFF1), faultOf (.loadRegs 15) (State.reset.withI 0xFF0)) =
      (some (.memoryOutOfRange 0x1000), none) ∧
    (faultOf (.drw 0 0 1) (State.reset.withI 0x1234), faultOf (.drw 0 0 0) (State.reset.withI 0x1234)) =
      (some (.memoryOutOfRange 0x1234), none) ∧
    (faultOf (.skp 3) (regs [(3, 16)]), faultOf (.sknp 3) (regs [(3, 15)])) =
      (some (.keyIndexOutOfRange 16), none) := by decide

theorem witness_FaultingStepIsAtomic : (holding 0x00EE).Running ∧
    ∃ t, step (holding 0x00EE) = .next t ∧ ¬ t.Running := ⟨rfl, _, rfl, by decide⟩

theorem witness_HaltedUntilReset : let ops : List HostOp := [.step, .tickTimers, .setKey 3, .load [1], .status]
    let s : State := { State.reset with halted := some someFault, st := 1 }
    (∀ op ∈ ops, op.isReset = false) ∧ s.halted = some someFault ∧ ∃ t, hostRun ops s = .next t :=
  ⟨by decide, rfl, _, rfl⟩

/-- The three results of a step. -/
theorem witness_StepReportsItsResult :
    ((stateOf (step (holding 0x00E0))).map (stepResult (holding 0x00E0)) = some .ok) ∧
    ((stateOf (step (holding 0x5121))).map (stepResult (holding 0x5121)) = some (.fault someFault)) ∧
    stepResult { State.reset with halted := some someFault } State.reset = .halted someFault := by decide

theorem witness_CallPushesAndJumps : (stacked 15).sp.val < 16 ∧ (stacked 16).sp.val = 16 := by decide

theorem witness_ReturnPopsIntoPc : (stacked 16).sp.val = (15 : Fin 16).val + 1 ∧
    (stacked 1).sp.val = (0 : Fin 16).val + 1 ∧ (stacked 0).sp.val = 0 := by decide

/-- CALL 0x300 at 0x200; a NOP at 0x300 and the RET at 0x302. -/
def calling : State := { State.reset with mem := [(0x200, 0x23), (0x303, 0xEE)] }

/-- Where the CALL leaves it. -/
def called : State := { calling with pc := 0x300, sp := 1, stack := calling.stack.set 0 0x202 }

theorem witness_ReturnComesBackAfterItsCall :
    calling.Running ∧ calling.Fetches (.call 0x300) ∧ calling.sp.val < 16 ∧
    step calling = .next called ∧ (∀ op ∈ [HostOp.step], op.isReset = false) ∧
    (∀ before after v, [HostOp.step] = before ++ .step :: after → hostRun before called = .next v →
      ¬(v.Running ∧ v.Fetches .ret ∧ v.sp.val = calling.sp.val + 1)) ∧
    ∃ u, hostRun [.step] called = .next u ∧ u.Running ∧ u.Fetches .ret ∧ u.sp.val = calling.sp.val + 1 := by
  refine ⟨rfl, ⟨by decide, rfl⟩, by decide, rfl, by decide, ?_, _, rfl, rfl, ⟨by decide, rfl⟩, by decide⟩
  intro before after v hops hv hret
  cases before with
  | nil =>
    injection hv with hv
    subst hv
    have hnop : decode called.wordAtPc = .ok .nop := rfl
    exact absurd (Except.ok.inj (hnop.symm.trans hret.2.1.2)) (by decide)
  | cons op rest => simp at hops

theorem witness_SelfJumpLoopsForever : (holding 0x1200).Running ∧ (holding 0x1200).Fetches (.jp (holding 0x1200).pc) :=
  ⟨rfl, by decide, rfl⟩

/-- The clauses for a destination that is not VF, and for VF. -/
theorem witness_AddSubtractAndShifts : (14 : Reg) ≠ Reg.vf ∧ (15 : Reg) = Reg.vf := by decide

theorem witness_DecimalDigitsAreStored :
    (State.reset.withI 0xFFD).i.toNat + 2 ≤ 0xFFF ∧ (State.reset.withI 0xFFE).i.toNat + 2 > 0xFFF := by decide

/-- Both ends of the range, with the registers at and next to `x`. -/
theorem witness_RegistersAreStoredAndLoaded :
    (State.reset.withI 0xFF0).i.toNat + (15 : Reg).val ≤ 0xFFF ∧ (State.reset.withI 0xFF1).i.toNat + (15 : Reg).val > 0xFFF ∧
    (State.reset.withI 0x1000).i.toNat + (0 : Reg).val > 0xFFF ∧ (14 : Reg) ≤ 14 ∧ (14 : Reg) < 15 := by decide

/-- T88: `F155` at 0x300 stores 00 E0 over the next instruction. -/
def storing : State := ((regs [(1, 0xE0)]).withI 0x302).withPc 0x300

theorem witness_StoredCodeRunsAtOnce : storing.Running ∧ 1 ≤ (1 : Reg).val ∧ storing.i.toNat + (1 : Reg).val ≤ 0xFFF ∧
    storing.pc + 2 = storing.i ∧ decode (wordOfBytes (storing.reg 0) (storing.reg 1)) = .ok .cls ∧
    ∃ t, exec (.storeRegs 1) storing = .next t := ⟨rfl, by decide, by decide, by decide, rfl, _, rfl⟩

/-- A draw up to the last byte of memory, of no rows, and one past the end; a cell the glyph 0 covers and one it does
not. -/
theorem witness_DrawTogglesTheCoveredCells :
    (15 < 16 ∧ (State.reset.withI 0xFF1).i.toNat + 15 ≤ 0x1000) ∧
    (2 ≠ 0 ∧ (State.reset.withI 0xFFF).i.toNat + 2 > 0x1000) ∧
    SpriteCovers State.reset.mem 0 1 63 31 31 2 ∧ ¬ SpriteCovers State.reset.mem 0 1 63 31 31 3 := by
  refine ⟨by decide, by decide, ⟨0, by decide, 3, by decide, by decide⟩, ?_⟩
  rintro ⟨r, hr, c, hc, hbit, -, hcol⟩
  have hr0 : r = 0 := by omega
  have hc4 : c = 4 := by change (63 + c) % 64 = 3 at hcol; omega
  subst hr0 hc4
  exact absurd hbit (by decide)

/-- T95: cell (0, 0) is lit and toggled; T96: cell (0, 4) is lit and not toggled. -/
theorem witness_CollisionFlagTellsOfALitCell :
    (1 < 16 ∧ (lit 0 0).i.toNat + 1 ≤ 0x1000) ∧
    (∃ t, exec (.drw 0 0 1) (lit 0 0) = .next t ∧ t.fb.cell 0 0 ≠ (lit 0 0).fb.cell 0 0 ∧
      (lit 0 0).fb.cell 0 0 = true) ∧
    (∃ t, exec (.drw 0 0 1) (lit 0 4) = .next t ∧
      ∀ col : Fin 64, t.fb.cell 0 col ≠ (lit 0 4).fb.cell 0 col → (lit 0 4).fb.cell 0 col = false) :=
  ⟨by decide, ⟨_, rfl, by decide, by decide⟩, _, rfl, by decide⟩

/-- The second draw names the origin through other registers. -/
theorem witness_DrawingTwiceRestoresTheScreen :
    let s := regs [(0, 62), (1, 31), (2, 62), (3, 31)]
    ∃ t, exec (.drw 0 1 5) s = .next t ∧ 5 < 16 ∧ s.i.toNat + 5 ≤ 0x1000 ∧ t.fb = t.fb ∧ t.reg 2 = s.reg 0 ∧
      t.reg 3 = s.reg 1 ∧ t.i.toNat + 5 ≤ 0x1000 ∧
      ∀ k, k < 5 → t.mem.read (t.i.toNat + k) = s.mem.read (s.i.toNat + k) :=
  ⟨_, rfl, by decide, by decide, rfl, by decide, by decide, by decide, by decide⟩

theorem witness_KeySkipsMovePc :
    ((regs [(3, 15)]).reg 3).toNat = (15 : Fin 16).val ∧ ((regs [(3, 16)]).reg 3).toNat > 0x0F := by decide

/-- No key pressed; the last key alone; two keys. -/
theorem witness_KeyWaitTakesTheLowestKey :
    (∀ k : Fin 16, State.reset.keys[k.val] = false) ∧
    ((pressing 15 0).keys[15] = true ∧ ∀ j : Fin 16, j < 15 → (pressing 15 0).keys[j.val] = false) ∧
    (((pressing 9 0).writeKey 5 true).keys[5] = true ∧
      ∀ j : Fin 16, j < 5 → ((pressing 9 0).writeKey 5 true).keys[j.val] = false) := by decide

theorem witness_KeyWaitStallsUntilAKey : (holding 0xF30A).Running ∧ (holding 0xF30A).Fetches (.ldVxK 3) ∧
    ∀ k : Fin 16, (holding 0xF30A).keys[k.val] = false := ⟨rfl, ⟨by decide, rfl⟩, by decide⟩

/-- An instruction of each clause that completes. -/
theorem witness_PcChangesOnlyAsListed :
    (∃ t, exec .cls State.reset = .next t) ∧ setsPc .cls = false ∧ skips .cls = false ∧ faultOf .cls State.reset = none ∧
    (∃ t, exec (.skp 3) (pressing 5 5) = .next t) ∧ skips (.skp 3) = true ∧ faultOf (.skp 3) (pressing 5 5) = none ∧
    (∃ t, exec .ret (stacked 16) = .next t) ∧ (stacked 16).sp.val = (15 : Fin 16).val + 1 ∧
    faultOf .ret (stacked 16) = none ∧ faultOf (.call 0xFFF) (stacked 15) = none ∧
    faultOf (.jpV0 0xFFF) State.reset = none ∧ faultOf (.ldVxK 3) State.reset = none :=
  ⟨⟨_, rfl⟩, rfl, rfl, rfl, ⟨_, rfl⟩, rfl, by decide, ⟨_, rfl⟩, by decide, by decide, by decide, rfl, rfl⟩

theorem witness_OnlyIndexInstructionsChangeI : (∃ t, exec (.storeRegs 2) (State.reset.withI 0x300) = .next t) ∧
    ∃ t, exec (.ldI 0x300) State.reset = .next t := ⟨⟨_, rfl⟩, _, rfl⟩

theorem witness_OtherRegistersKeepTheirValue :
    (∃ t, exec (.loadRegs 3) State.reset = .next t) ∧ writesReg (.loadRegs 3) 4 = false := ⟨⟨_, rfl⟩, by decide⟩

theorem witness_OnlyFlagWritersAndDestinationsChangeVf :
    (∃ t, exec (.addReg 1 2) State.reset = .next t) ∧ ∃ t, exec (.ldImm 15 7) State.reset = .next t :=
  ⟨⟨_, rfl⟩, _, rfl⟩

theorem witness_StackIsSeenOnlyByCallAndReturn :
    (∃ t, exec (.call 0x300) State.reset = .next t) ∧ Instr.storeRegs 2 ≠ .ret ∧
    (∃ t, exec (.storeRegs 2) State.reset = .next t) ∧ ∃ t, exec (.storeRegs 2) (stacked 0) = .next t :=
  ⟨⟨_, rfl⟩, by decide, ⟨_, rfl⟩, _, rfl⟩

theorem witness_TimersAreWrittenOnlyByTheirInstructions :
    (∃ t, exec (.ldStVx 3) (regs [(3, 1)]) = .next t) ∧ ∃ t, exec (.ldStVx 3) { regs [(3, 1)] with st := 9 } = .next t :=
  ⟨⟨_, rfl⟩, _, rfl⟩

theorem witness_ScreenKeysAndMemoryHaveTheirWriters :
    (∃ t, exec .cls State.reset = .next t) ∧ ∃ t, exec (.ldB 0) (State.reset.withI 0xFFD) = .next t :=
  ⟨⟨_, rfl⟩, _, rfl⟩

theorem witness_KeyOperationsSetOneKey : 15 < 16 ∧ 16 ≥ 16 := by decide

/-- T121: the longest ROM that fits; T123: the empty one. -/
theorem witness_LoadCopiesTheRomOnly : 0x200 + (List.replicate 3584 (1 : Byte)).length ≤ 4096 ∧
    0x200 + ([] : List Byte).length ≤ 4096 ∧ 3583 < (List.replicate 3584 (1 : Byte)).length := by
  simp only [List.length_replicate, List.length_nil]; omega

/-- T120: one byte more does not fit. -/
theorem witness_LoadTooLargeWritesNothing : 0x200 + (List.replicate 3585 (1 : Byte)).length > 4096 := by
  simp only [List.length_replicate]; omega

/-- A reset, a load and a step, from the bounds themselves. -/
theorem witness_HostOperationsKeepTheInvariant :
    let s : State := { State.reset.withPc 0x10FE with stack := Vector.replicate 16 0x1000 }
    s.Inv ∧ (∃ t r, hostApply (.load [1, 2]) s = .next (t, r)) ∧ (∃ t r, hostApply .step s = .next (t, r)) ∧
    ∃ t r, hostApply (.reset (Vector.replicate 80 1) (Vector.replicate 4016 2)) s = .next (t, r) :=
  ⟨by decide, ⟨_, _, rfl⟩, ⟨_, _, rfl⟩, _, _, rfl⟩

/-- A CALL with one entry in use, and a RET that pops another entry than the one kept. -/
theorem witness_StackEntriesInUseAreKeptUntilTheirReturn :
    (let s := (stacked 1).withFetchWord 16 0x2ABC
     (0 : Fin 16).val < s.sp.val ∧ (∃ t, step s = .next t) ∧ ¬ s.Fetches .ret) ∧
    (let s := (stacked 16).withFetchWord 16 0x00EE
     (14 : Fin 16).val < s.sp.val ∧ (∃ t, step s = .next t) ∧ ¬ s.sp.val = (14 : Fin 16).val + 1) := by
  refine ⟨⟨by decide, ⟨_, rfl⟩, fun h => ?_⟩, by decide, ⟨_, rfl⟩, by decide⟩
  have hcall : decode ((stacked 1).withFetchWord 16 0x2ABC).wordAtPc = .ok (.call 0xABC) := rfl
  exact absurd (Except.ok.inj (hcall.symm.trans h.2)) (by decide)

end Sys2Proof.Tests
end

section
/-! SUPPORT. The obligations about the registers of the machine's state (spec/10_state.md): what `pc` is after an
instruction that completes (R26), who reads and writes the stack entries (R29), the reset values (R38, R40-R44). -/

namespace Sys2Proof.Machine

/-! ### What `pc` is after an instruction that completes (R26) -/

/-- An instruction that neither skips nor sets `pc` leaves the fetch's advance. -/
theorem completed_pc_of_plain {i : Instr} (hset : setsPc i = false) (hskip : skips i = false) (s : State) :
    (completed i s).pc = s.pc + 2 := by
  cases i with
  | ret | jp | call | jpV0 | ldVxK => simp [setsPc] at hset
  | seImm | sneImm | seReg | sneReg | skp | sknp => simp [skips] at hskip
  | nop | cls | ldImm | addImm | ldReg | orReg | andReg | xorReg | addReg | subReg | shr | subnReg | shl => rfl
  | rnd | drw | ldVxDt | ldDtVx | ldStVx | ldI | addI | ldF | ldB | storeRegs | loadRegs => rfl

/-- A skip after the fetch is taken or not. -/
theorem advancePc_skipIf_pc (s : State) (c : Bool) :
    (s.advancePc.skipIf c).pc = s.pc + 2 ∨ (s.advancePc.skipIf c).pc = s.pc + 2 + 2 := by
  cases c with
  | false => exact .inl rfl
  | true => exact .inr rfl

/-- A skip instruction leaves the fetch's advance, or two more. -/
theorem completed_pc_of_skips {i : Instr} (hskip : skips i = true) (s : State) :
    (completed i s).pc = s.pc + 2 ∨ (completed i s).pc = s.pc + 2 + 2 := by
  cases i with
  | seImm | sneImm | seReg | sneReg | skp | sknp => exact advancePc_skipIf_pc s _
  | ret | jp | call | jpV0 | ldVxK | nop | cls => simp [skips] at hskip
  | ldImm | addImm | ldReg | orReg | andReg | xorReg | addReg | subReg | shr | subnReg | shl => simp [skips] at hskip
  | rnd | drw | ldVxDt | ldDtVx | ldStVx | ldI | addI | ldF | ldB | storeRegs | loadRegs => simp [skips] at hskip

/-- RET continues at the popped entry (R102). -/
theorem completed_ret_pc {s : State} {j : Fin 16} (hsp : s.sp.val = j.val + 1) :
    (completed .ret s).pc = s.stack[j.val] := by
  have hj : s.sp.val - 1 = j.val := by omega
  simp [completed, hj, Vector.getD]

/-- A key wait takes the fetch's advance back while no key is pressed (R174). -/
theorem completed_ldVxK_pc (x : Reg) (s : State) :
    (completed (.ldVxK x) s).pc = if ∀ k : Fin 16, s.keys[k.val] = false then s.pc + 2 - 2 else s.pc + 2 := by
  cases hk : s.lowestKey with
  | none => simp [completed, hk, State.lowestKey_eq_none.1 hk]
  | some k =>
    have hpressed : ¬ ∀ k : Fin 16, s.keys[k.val] = false := fun h => by
      simp [State.lowestKey_eq_none.2 h] at hk
    rw [if_neg hpressed]
    simp [completed, hk]

/-- Settles O46: `completed` writes out the state an instruction leaves when it raises no fault, and its `pc` is read
off for each clause of R26. -/
theorem pcChangesOnlyAsListed : Obligations.PcChangesOnlyAsListed := by
  intro i s t hexec hnofault
  obtain ⟨f, hfault, -⟩ | ⟨-, rfl⟩ := exec_cases hexec
  · rw [hnofault] at hfault; cases hfault
  refine ⟨fun hset hskip => completed_pc_of_plain hset hskip s, fun hskip => completed_pc_of_skips hskip s,
    ?_, ?_, ?_, ?_⟩
  · rintro nnn (rfl | rfl) <;> rfl
  · rintro nnn rfl
    exact indexedTarget_toNat (s.reg 0) nnn
  · rintro j rfl hsp
    exact completed_ret_pc hsp
  · rintro x rfl
    exact completed_ldVxK_pc x s

/-! ### Who writes and who reads the stack entries (R29) -/

/-- The state with other stack entries. -/
abbrev State.withStack (s : State) (entries : Vector Word 16) : State := { s with stack := entries }

/-- No instruction but CALL writes an entry. -/
theorem completed_stack {i : Instr} (hcall : ∀ nnn, i ≠ .call nnn) (s : State) :
    (completed i s).stack = s.stack := by
  cases i with
  | call nnn => exact absurd rfl (hcall nnn)
  | seImm | sneImm | seReg | sneReg | skp | sknp => exact State.skipIf_stack s.advancePc _
  | ldVxK x => cases hk : s.lowestKey <;> simp [completed, hk]
  | nop | cls | ret | jp | jpV0 | ldImm | addImm | ldReg | orReg | andReg | xorReg | addReg | subReg | shr => rfl
  | subnReg | shl | rnd | drw | ldVxDt | ldDtVx | ldStVx | ldI | addI | ldF | ldB | storeRegs | loadRegs => rfl

/-- Whether an instruction faults does not depend on the entries. -/
theorem faultOf_withStack (i : Instr) (s : State) (entries : Vector Word 16) :
    faultOf i (s.withStack entries) = faultOf i s := by
  cases i <;> rfl

/-- A skip does not read the entries. -/
theorem skipIf_withStack (s : State) (c : Bool) (entries : Vector Word 16) :
    ((s.withStack entries).skipIf c).withStack s.stack = s.skipIf c := by
  cases c <;> rfl

/-- No instruction but RET reads an entry: with other entries it leaves the same state but for them. -/
theorem completed_withStack {i : Instr} (hret : i ≠ .ret) (s : State) (entries : Vector Word 16) :
    (completed i (s.withStack entries)).withStack (completed i s).stack = completed i s := by
  cases i with
  | ret => exact absurd rfl hret
  | seImm | sneImm | seReg | sneReg | skp | sknp =>
    rw [completed_stack (by simp)]
    exact skipIf_withStack s.advancePc _ entries
  | ldVxK x =>
    have hkeys : (s.withStack entries).lowestKey = s.lowestKey := rfl
    cases hk : s.lowestKey <;> simp only [completed, hkeys, hk] <;> rfl
  | nop | cls | jp | call | jpV0 | ldImm | addImm | ldReg | orReg | andReg | xorReg | addReg | subReg | shr => rfl
  | subnReg | shl | rnd | drw | ldVxDt | ldDtVx | ldStVx | ldI | addI | ldF | ldB | storeRegs | loadRegs => rfl

/-- Settles O50: a fault keeps the entries and is raised whatever they are; an instruction that completes writes them
only as CALL and reads them only as RET; `Fetch()` reads `mem` and `pc` alone. -/
theorem stackIsSeenOnlyByCallAndReturn : Obligations.StackIsSeenOnlyByCallAndReturn := by
  intro i s t t' entries
  refine ⟨fun hexec => ?_, fun hret hexec hexec' => ?_, rfl⟩
  · obtain ⟨f, -, rfl⟩ | ⟨-, rfl⟩ := exec_cases hexec
    · exact .inl rfl
    · by_cases hcall : ∃ nnn, i = .call nnn
      · exact .inr hcall
      · exact .inl (completed_stack (not_exists.1 hcall) s)
  · rw [exec_eq] at hexec hexec'
    rw [faultOf_withStack i s entries] at hexec'
    cases hfault : faultOf i s with
    | some f =>
      rw [hfault] at hexec hexec'
      cases hexec; cases hexec'; rfl
    | none =>
      rw [hfault] at hexec hexec'
      cases hexec; cases hexec'
      exact completed_withStack hret s entries

/-! ### The reset values (R38, R40-R44) -/

theorem resetRegisters_reset : ResetRegisters State.reset := by
  refine ⟨fun r => ?_, rfl, rfl, fun j => ?_, rfl, rfl, fun row col => ?_, fun k => ?_⟩
  · simp [State.reg, State.reset]
  · simp [State.reset]
  · simp [State.reset, FrameBuffer.cell, FrameBuffer.blank]
  · simp [State.reset]

/-- The reset values say nothing of memory and of the count of draws, in which alone `create` and the host's `reset()`
differ from `State.reset`. -/
theorem ResetRegisters.withMemDraws {u : State} (h : ResetRegisters u) (m : Memory) (d : Nat) :
    ResetRegisters { u with mem := m, draws := d } := h

/-- Settles O1: the values hold in `State.reset`, and `FONT`, the tail and the state before a reset reach only memory
and the count of draws. -/
theorem resetEstablishesTheRegisters : Obligations.ResetEstablishesTheRegisters :=
  ⟨resetRegisters_reset, fun _ _ s =>
    ⟨resetRegisters_reset.withMemDraws _ 0, _, rfl, resetRegisters_reset.withMemDraws _ s.draws⟩⟩

end Sys2Proof.Machine
end

section
/-! SUPPORT. The obligation about the instruction word in memory (spec/20_memory.md): which bytes a step executes (R57). -/

namespace Sys2Proof.Machine

/-- Up to `pc` 0xFFE both bytes of the instruction word are in memory, so the fetch raises no fault (R71). -/
theorem accessFault_fetch_none {pc : Nat} (hpc : pc ≤ 0xFFE) : accessFault pc 2 = none :=
  accessFault_none.2 (.inr (by omega))

/-- Settles O11: the fetch raises no fault, and the word it reads has the byte at `pc` high and the byte at `pc + 1`
low, which is how `wordAtPc` is defined. -/
theorem stepRunsTheDecodedInstruction : Obligations.StepRunsTheDecodedInstruction := by
  intro s i hrunning hpc hdecode
  exact step_exec hrunning (accessFault_fetch_none hpc) hdecode

end Sys2Proof.Machine
end

section
/-! SUPPORT. The obligations about control flow (spec/40_control_flow.md): the no-op (R101), the jump (R103) and the
compare skips (R105-R108), as cases of one operation that sets `pc` and nothing else. -/

namespace Sys2Proof.Machine

/-! ### Setting `pc` and nothing else -/

theorem changesOnlyPc_jumpTo (s : State) (target : Word) : ChangesOnlyPc s (s.jumpTo target) :=
  ⟨fun _ _ => rfl, rfl, fun _ => rfl, ⟨rfl, rfl⟩, ⟨rfl, rfl⟩, rfl, ⟨rfl, rfl, rfl⟩⟩

/-- A skip after the fetch's advance only sets `pc`: four bytes on when it is taken, two when it is not (R100). -/
theorem advancePc_skipIf_eq_jumpTo (s : State) (c : Bool) :
    s.advancePc.skipIf c = s.jumpTo (if c then s.pc + 4 else s.pc + 2) := by
  cases c with
  | false => rfl
  | true =>
    have htwice : s.pc + 2 + 2 = s.pc + 4 := BitVec.add_assoc s.pc 2 2
    exact congrArg s.jumpTo htwice

/-- What an instruction does that ends in a skip on the condition `c`. -/
theorem exec_skipIf_pc {i : Instr} {s : State} {c : Bool} (hexec : exec i s = .next (s.advancePc.skipIf c)) :
    ∃ t, exec i s = .next t ∧ t.pc = (if c then s.pc + 4 else s.pc + 2) ∧ ChangesOnlyPc s t := by
  rw [advancePc_skipIf_eq_jumpTo] at hexec
  exact ⟨_, hexec, rfl, changesOnlyPc_jumpTo s _⟩

/-! ### The instructions -/

/-- Settles O20: NOP completes with the state the fetch leaves. -/
theorem nopOnlyAdvancesPc : Obligations.NopOnlyAdvancesPc :=
  exec_eq .nop

/-- Settles O21: JP completes with `pc` set to its target. -/
theorem jumpSetsPc : Obligations.JumpSetsPc := fun nnn s =>
  ⟨s.jumpTo nnn, exec_eq (.jp nnn) s, rfl, changesOnlyPc_jumpTo s nnn⟩

/-- Settles O25: each of the four completes with a skip, on equality for SE and on inequality for SNE. -/
theorem compareSkipsMovePc : Obligations.CompareSkipsMovePc := by
  intro x y kk s
  refine ⟨?seImm, ?sneImm, ?seReg, ?sneReg⟩
  case seImm => simpa only [beq_iff_eq] using exec_skipIf_pc (exec_eq (.seImm x kk) s)
  case sneImm => simpa only [bne_iff_ne, ite_not] using exec_skipIf_pc (exec_eq (.sneImm x kk) s)
  case seReg => simpa only [beq_iff_eq] using exec_skipIf_pc (exec_eq (.seReg x y) s)
  case sneReg => simpa only [bne_iff_ne, ite_not] using exec_skipIf_pc (exec_eq (.sneReg x y) s)

end Sys2Proof.Machine
end

section
/-! SUPPORT. The obligations about the arithmetic instructions that write one register (spec/41_alu.md): the loads and the
immediate add (R122-R124) and the bitwise operations (R125-R127), as cases of one write after the fetch's advance. -/

namespace Sys2Proof.Machine

/-! ### Writing registers and nothing else -/

theorem changesOnlyRegs_advancePc (dests : List Reg) (s : State) : ChangesOnlyRegs dests s s.advancePc :=
  ⟨fun _ _ => rfl, rfl, fun _ => rfl, ⟨rfl, rfl⟩, ⟨rfl, rfl⟩, rfl, ⟨rfl, rfl, rfl⟩⟩

/-- Writing a register of `dests` stays within a frame that leaves `dests` open. -/
theorem changesOnlyRegs_setReg {dests : List Reg} {s t : State} {x : Reg} (hframe : ChangesOnlyRegs dests s t)
    (hx : x ∈ dests) (b : Byte) : ChangesOnlyRegs dests s (t.setReg x b) := by
  obtain ⟨hregs, hrest⟩ := hframe
  refine ⟨fun r hr => ?_, hrest⟩
  have hne : r ≠ x := fun heq => hr (heq ▸ hx)
  rw [State.setReg_reg, if_neg hne, hregs r hr]

/-- What an instruction does that writes `b` to `V[x]` after the fetch's advance. -/
theorem exec_setReg {i : Instr} {s : State} {x : Reg} {b : Byte} (hexec : exec i s = .next (s.advancePc.setReg x b)) :
    ∃ t, exec i s = .next t ∧ t.reg x = b ∧ t.pc = s.pc + 2 ∧ ChangesOnlyRegs [x] s t := by
  refine ⟨_, hexec, ?reg, rfl, ?frame⟩
  case reg => rw [State.setReg_reg, if_pos rfl]
  case frame => exact changesOnlyRegs_setReg (changesOnlyRegs_advancePc [x] s) List.mem_cons_self b

/-! ### The instructions -/

/-- Settles O28: each of the three completes with one write; the sum of bytes is taken modulo 256. -/
theorem loadsAndImmediateAddWriteTheirRegister : Obligations.LoadsAndImmediateAddWriteTheirRegister := by
  intro x y kk s
  refine ⟨?ldImm, ?addImm, ?ldReg⟩
  case ldImm => exact exec_setReg (exec_eq (.ldImm x kk) s)
  case addImm =>
    refine (exec_setReg (exec_eq (.addImm x kk) s)).imp fun t ⟨hexec, hreg, hrest⟩ => ⟨hexec, ?_, hrest⟩
    rw [hreg, BitVec.toNat_add]
  case ldReg => exact exec_setReg (exec_eq (.ldReg x y) s)

/-- Settles O29: each of the three completes with one write of the operation on the two bytes, which acts bit by bit. -/
theorem logicOpsWorkBitwise : Obligations.LogicOpsWorkBitwise := by
  intro x y s
  refine ⟨?orReg, ?andReg, ?xorReg⟩
  case orReg =>
    refine (exec_setReg (exec_eq (.orReg x y) s)).imp fun t ⟨hexec, hreg, hrest⟩ => ⟨hexec, fun b _ => ?_, hrest⟩
    rw [hreg, BitVec.getLsbD_or]
  case andReg =>
    refine (exec_setReg (exec_eq (.andReg x y) s)).imp fun t ⟨hexec, hreg, hrest⟩ => ⟨hexec, fun b _ => ?_, hrest⟩
    rw [hreg, BitVec.getLsbD_and]
  case xorReg =>
    refine (exec_setReg (exec_eq (.xorReg x y) s)).imp fun t ⟨hexec, hreg, hrest⟩ => ⟨hexec, fun b _ => ?_, hrest⟩
    rw [hreg, BitVec.getLsbD_xor]

end Sys2Proof.Machine
end

section
/-! SUPPORT. The obligations about the address register (spec/42_index_memory.md): what LD I, ADD I and LD F do
(R140-R142), as cases of one write of `I` after the fetch's advance, and that no other instruction changes `I` (R146). -/

namespace Sys2Proof.Machine

/-! ### Writing `I` and nothing else -/

theorem changesOnlyIndex_advancePc_setIndex (s : State) (w : Word) : ChangesOnlyIndex s (s.advancePc.setIndex w) :=
  ⟨fun _ _ => rfl, fun _ => rfl, ⟨rfl, rfl⟩, ⟨rfl, rfl⟩, rfl, ⟨rfl, rfl, rfl⟩⟩

/-- What an instruction does that writes `w` to `I` after the fetch's advance. -/
theorem exec_setIndex {i : Instr} {s : State} {w : Word} (hexec : exec i s = .next (s.advancePc.setIndex w)) :
    ∃ t, exec i s = .next t ∧ t.i = w ∧ t.pc = s.pc + 2 ∧ ChangesOnlyIndex s t :=
  ⟨_, hexec, rfl, rfl, changesOnlyIndex_advancePc_setIndex s w⟩

/-- Settles O33: each of the three completes with one write of `I`; the sum is taken modulo 65536, and five times a byte
fits a word, so LD F does not wrap. -/
theorem indexInstructionsSetI : Obligations.IndexInstructionsSetI := by
  intro x nnn s
  refine ⟨?ldI, ?addI, ?ldF⟩
  case ldI => exact exec_setIndex (exec_eq (.ldI nnn) s)
  case addI =>
    refine (exec_setIndex (exec_eq (.addI x) s)).imp fun t ⟨hexec, hindex, hrest⟩ => ⟨hexec, ?_, hrest⟩
    rw [hindex, advancedIndex_toNat]
  case ldF =>
    refine (exec_setIndex (exec_eq (.ldF x) s)).imp fun t ⟨hexec, hindex, hrest⟩ => ⟨hexec, ?_, hrest⟩
    rw [hindex, glyphAddress_toNat]

/-! ### Who writes `I` (R146) -/

/-- An instruction that completes keeps `I`, or is one of the three that write it. -/
theorem completed_i (i : Instr) (s : State) :
    (completed i s).i = s.i ∨ (∃ nnn, i = .ldI nnn) ∨ (∃ x, i = .addI x) ∨ ∃ x, i = .ldF x := by
  cases i with
  | ldI nnn => exact .inr (.inl ⟨nnn, rfl⟩)
  | addI x => exact .inr (.inr (.inl ⟨x, rfl⟩))
  | ldF x => exact .inr (.inr (.inr ⟨x, rfl⟩))
  | seImm | sneImm | seReg | sneReg | skp | sknp => exact .inl (State.skipIf_i s.advancePc _)
  | ldVxK x => left; cases hk : s.lowestKey <;> simp [completed, hk]
  | nop | cls | ret | jp | call | jpV0 | ldImm | addImm | ldReg | orReg | andReg | xorReg => exact .inl rfl
  | addReg | subReg | shr | subnReg | shl | rnd | drw => exact .inl rfl
  | ldVxDt | ldDtVx | ldStVx | ldB | storeRegs | loadRegs => exact .inl rfl

/-- Settles O47: a fault keeps `I`, and an instruction that completes keeps it or is one of the three. -/
theorem onlyIndexInstructionsChangeI : Obligations.OnlyIndexInstructionsChangeI := by
  intro i s t hexec
  obtain ⟨f, -, rfl⟩ | ⟨-, rfl⟩ := exec_cases hexec
  · exact .inl rfl
  · exact completed_i i s

end Sys2Proof.Machine
end

section
/-! SUPPORT. The obligations about the display (spec/43_display.md): what CLS does (R161) and the collision flag of DRW
(R163). -/

namespace Sys2Proof.Machine

/-! ### Writing the frame buffer and nothing else -/

theorem changesOnlyScreen_advancePc_withFb (s : State) (fb : FrameBuffer) :
    ChangesOnlyScreen [] s { s.advancePc with fb := fb } :=
  ⟨fun _ _ => rfl, rfl, fun _ => rfl, ⟨rfl, rfl⟩, ⟨rfl, rfl⟩, ⟨rfl, rfl, rfl⟩⟩

/-- Settles O38: CLS completes with one write of the frame buffer, the blank one. -/
theorem clearUnlightsEveryCell : Obligations.ClearUnlightsEveryCell := fun s =>
  ⟨{ s.advancePc with fb := FrameBuffer.blank }, exec_eq .cls s, FrameBuffer.cell_blank, rfl,
    changesOnlyScreen_advancePc_withFb s FrameBuffer.blank⟩

/-! ### What a draw does to the cells (R160, R162) -/

section Draw

variable {n : Nat} (hn : n ≤ 32) (x y : Reg) (s : State)
include hn

/-- The cells the sprite covers are toggled and the others kept. -/
theorem drawn_cell (row : Fin 32) (col : Fin 64) :
    (SpriteCovers s.mem s.i.toNat n (s.reg x).toNat (s.reg y).toNat row col →
      (drawn x y n s).fb.cell row col = !s.fb.cell row col) ∧
    (¬ SpriteCovers s.mem s.i.toNat n (s.reg x).toNat (s.reg y).toNat row col →
      (drawn x y n s).fb.cell row col = s.fb.cell row col) := by
  rw [← spriteHits_read_iff]
  exact Blit.rows_cell _ _ _ _ (by simpa using hn) row col

/-- A cell changes exactly when the sprite covers it. -/
theorem drawn_cell_ne_iff (row : Fin 32) (col : Fin 64) :
    (drawn x y n s).fb.cell row col ≠ s.fb.cell row col ↔
      SpriteCovers s.mem s.i.toNat n (s.reg x).toNat (s.reg y).toNat row col := by
  obtain ⟨htoggled, hkept⟩ := drawn_cell hn x y s row col
  constructor
  · exact fun hne => by_contra fun hcov => hne (hkept hcov)
  · intro hcov
    rw [htoggled hcov]
    exact Bool.not_ne_self _

/-- The collision flag tells whether a cell that changes was lit (R163). -/
theorem drawn_collision :
    (drawn x y n s).collision = true ↔ ∃ (row : Fin 32) (col : Fin 64),
      (drawn x y n s).fb.cell row col ≠ s.fb.cell row col ∧ s.fb.cell row col = true := by
  simp only [drawn_cell_ne_iff hn, ← spriteHits_read_iff]
  rw [drawn, Blit.rows_collision _ _ _ _ (by simpa using hn)]
  simp only [Bool.false_eq_true, false_or]

end Draw

/-! ### The collision flag (R163) -/

/-- DRW completes when its sprite is in memory. -/
theorem exec_drw_completed {n : Nat} {s : State} (hmem : n = 0 ∨ s.i.toNat + n ≤ 0x1000) (x y : Reg) :
    exec (.drw x y n) s = .next (completed (.drw x y n) s) := by
  have hnofault : faultOf (.drw x y n) s = none := accessFault_none.2 hmem
  rw [exec_eq, hnofault]

theorem completed_drw_vf (x y : Reg) (n : Nat) (s : State) :
    (completed (.drw x y n) s).reg Reg.vf = flagByte (drawn x y n s).collision := by
  rw [completed, State.setReg_reg, if_pos rfl]

/-- Settles O40: DRW completes, VF is the collision flag of the draw, and that flag tells whether a cell that changes was
lit. -/
theorem collisionFlagTellsOfALitCell : Obligations.CollisionFlagTellsOfALitCell := by
  intro x y n s hn hmem
  have hcollision := drawn_collision (show n ≤ 32 by omega) x y s
  refine ⟨completed (.drw x y n) s, exec_drw_completed hmem x y, fun hlit => ?lit, fun hunlit => ?unlit⟩
  case lit => rw [completed_drw_vf, hcollision.2 hlit]; rfl
  case unlit =>
    have hno : (drawn x y n s).collision = false := by
      rw [Bool.eq_false_iff, ne_eq, hcollision]
      rintro ⟨row, col, hne, hlit⟩
      exact absurd hlit (Bool.eq_false_iff.1 (hunlit row col hne))
    rw [completed_drw_vf, hno]; rfl

end Sys2Proof.Machine
end

section
/-! SUPPORT. The obligations about the keys and the timers (spec/44_timers_keys.md): the key wait (R174), and what LD Vx,DT,
LD DT,Vx and LD ST,Vx move (R173, R175, R176). -/

namespace Sys2Proof.Machine

/-! ### The key wait (R174) -/

theorem keyByte_toNat (k : Reg) : (keyByte k).toNat = k.val :=
  Nat.mod_eq_of_lt (k.isLt.trans (by decide))

/-- Settles O43: with no key pressed the fetch's advance is taken back; otherwise the wait completes with one write, the
number of the lowest key, which fits a byte. -/
theorem keyWaitTakesTheLowestKey : Obligations.KeyWaitTakesTheLowestKey := by
  refine fun x s => ⟨execLdVxK_none, fun k hk hlow => ?pressed⟩
  case pressed =>
    have hexec : exec (.ldVxK x) s = .next (s.advancePc.setReg x (keyByte k)) := execLdVxK_some hk hlow
    refine (exec_setReg hexec).imp fun t ⟨hnext, hreg, hrest⟩ => ⟨hnext, ?_, hrest⟩
    rw [hreg, keyByte_toNat]

/-! ### Moving bytes to and from the timers (R173, R175, R176) -/

/-- Everything but `pc` and the timers. -/
abbrev ChangesOnlyTimers (s t : State) : Prop :=
  KeepsRegsBut [] s t ∧ t.i = s.i ∧ KeepsMemory s t ∧ KeepsStack s t ∧ t.fb = s.fb ∧ KeepsControl s t

theorem changesOnlyTimers_advancePc_withTimers (s : State) (dt st : Byte) :
    ChangesOnlyTimers s { s.advancePc with dt := dt, st := st } :=
  ⟨fun _ _ => rfl, rfl, fun _ => rfl, ⟨rfl, rfl⟩, rfl, ⟨rfl, rfl, rfl⟩⟩

/-- Settles O45: LD Vx,DT completes with one write of a register, the other two with one write of a timer. -/
theorem timerInstructionsMoveBytes : Obligations.TimerInstructionsMoveBytes := by
  intro x s
  refine ⟨?ldVxDt, ?ldDtVx, ?ldStVx⟩
  case ldVxDt => exact exec_setReg (exec_eq (.ldVxDt x) s)
  case ldDtVx =>
    exact ⟨_, exec_eq (.ldDtVx x) s, rfl, rfl, rfl, changesOnlyTimers_advancePc_withTimers s (s.reg x) s.st⟩
  case ldStVx =>
    exact ⟨_, exec_eq (.ldStVx x) s, rfl, rfl, rfl, changesOnlyTimers_advancePc_withTimers s s.dt (s.reg x)⟩

end Sys2Proof.Machine
end

section
/-! SUPPORT. The obligations about the host's operations (spec/60_exceptions.md): what `step()` returns (R211), what a tick
does to the timers (R212), and on which tick the tone edge comes (R213). -/

namespace Sys2Proof.Machine

/-! ### What `step()` returns (R211) -/

/-- An instruction answers a next state, whether it faults or completes. -/
theorem exec_total (i : Instr) (s : State) : ∃ t, exec i s = .next t := by
  rw [exec_eq]
  cases faultOf i s with
  | some f => exact ⟨_, rfl⟩
  | none => exact ⟨_, rfl⟩

/-- A step answers a next state: halted, faulting in the fetch or the decode, or executing. -/
theorem step_total (s : State) : ∃ t, step s = .next t := by
  obtain ⟨r, -, hstep⟩ | ⟨f, -, -, hstep⟩ | ⟨-, -, -, hstep⟩ | ⟨i, -, -, -, hstep⟩ := step_cases s
  · exact ⟨_, hstep⟩
  · exact ⟨_, hstep⟩
  · exact ⟨_, hstep⟩
  · rw [hstep]
    exact exec_total i s

theorem hostApply_step {s t : State} (hstep : step s = .next t) :
    hostApply .step s = .next (t, .stepped (stepResult s t)) := by
  rw [hostApply, hstep]

section StepResult

variable {s t : State}

theorem stepResult_of_halted {r : FaultRecord} (hs : s.halted = some r) : stepResult s t = .halted r := by
  rw [stepResult, hs]

theorem stepResult_of_fault {r : FaultRecord} (hs : s.Running) (ht : t.halted = some r) :
    stepResult s t = .fault r := by
  rw [stepResult, hs, ht]

theorem stepResult_of_running (hs : s.Running) (ht : t.Running) : stepResult s t = .ok := by
  rw [stepResult, hs, ht]

end StepResult

/-- Settles O19: a step answers a next state, and the three results go with the three cases of whether the core runs
before and after it. -/
theorem stepReportsItsResult : Obligations.StepReportsItsResult := by
  intro s
  obtain ⟨t, hstep⟩ := step_total s
  refine ⟨t, stepResult s t, hostApply_step hstep, hstep, ?_⟩
  cases hs : s.halted with
  | some r => simp [stepResult_of_halted hs, State.Running, hs]
  | none =>
    cases ht : t.halted with
    | some r => simp [stepResult_of_fault hs ht, State.Running, hs, ht]
    | none => simp [stepResult_of_running hs ht, State.Running, hs, ht]

/-! ### Ticks (R212, R213) -/

/-- One less, or 0 at 0: the subtraction of natural numbers. -/
theorem countDown_toNat (b : Byte) : (countDown b).toNat = b.toNat - 1 := by
  by_cases hzero : b = 0
  · subst hzero; rfl
  · rw [countDown, if_neg hzero]
    bv_omega

/-- The tone edge is `ST = 1` before the tick (R213). -/
theorem toneEdge_iff (s : State) : s.toneEdge = true ↔ s.st.toNat = 1 := by
  rw [State.toneEdge, beq_iff_eq, BitVec.toNat_eq]
  rfl

/-- Settles O53: a tick is the count down of the two timers, and its reply is the tone edge of the state before it. -/
theorem tickCountsDownBothTimers : Obligations.TickCountsDownBothTimers := fun s =>
  ⟨s.tickTimers, s.toneEdge, rfl, countDown_toNat s.dt, countDown_toNat s.st, toneEdge_iff s, rfl⟩

/-- After `k` ticks `ST` is `k` less, or 0 once it has run out. -/
theorem iterate_tickTimers_st_toNat (s : State) (k : Nat) :
    (State.tickTimers^[k] s).st.toNat = s.st.toNat - k := by
  induction k with
  | zero => rfl
  | succ k ih => rw [Function.iterate_succ_apply', State.tickTimers_st, countDown_toNat, ih, Nat.sub_sub]

/-- Settles O54: after `k` ticks `ST` is 1 exactly when it was `k + 1` at the start. -/
theorem toneEdgeComesOnce : Obligations.ToneEdgeComesOnce := by
  intro s k
  rw [toneEdge_iff, iterate_tickTimers_st_toNat]
  omega

end Sys2Proof.Machine
end

section
/-! SUPPORT. The obligation about loading a ROM (spec/70_reset_and_hazards.md): which bytes a load writes (R233). -/

namespace Sys2Proof.Machine

/-- A sequence of writes leaves its byte `j` at the address `a + j`. -/
theorem Memory.read_writeSeq_add {m : Memory} {a j : Nat} {vs : List Byte} (hj : j < vs.length) :
    (m.writeSeq a vs).read (a + j) = vs.getD j 0 := by
  rw [Memory.read_writeSeq, if_pos (by omega), Nat.add_sub_cancel_left]

/-- A load of a ROM that fits is done, and writes its bytes in order from 0x200 up (R232). -/
theorem hostApply_load_of_fits {rom : List Byte} (hfits : 0x200 + rom.length ≤ 4096) (s : State) :
    hostApply (.load rom) s = .next ({ s with mem := s.mem.writeSeq 0x200 rom }, .done) := by
  have hload : loadFits rom = true := decide_eq_true hfits
  rw [hostApply, State.load, loadReply, if_pos hload, if_pos hload]

/-- Settles O56: a load that fits is one sequence of writes, of which a read inside the ROM's region gives the ROM's byte
and a read outside it the byte from before. -/
theorem loadCopiesTheRomOnly : Obligations.LoadCopiesTheRomOnly := by
  intro s rom hfits
  refine ⟨{ s with mem := s.mem.writeSeq 0x200 rom }, hostApply_load_of_fits hfits s, ?inside, ?outside, rfl⟩
  case inside => exact fun j hj => Memory.read_writeSeq_add hj
  case outside => exact fun a ha => Memory.read_writeSeq_outside ha

end Sys2Proof.Machine
end

section
/-! SUPPORT. The obligations about the encoding (spec/30_encoding.md): decoding and encoding are inverse to each other
(R72, R74), and the decoder accepts exactly the words one row of the opcode table covers (R76). -/

namespace Sys2Proof

/-! ### A word is the word of its fields (R72, R74) -/

section Fields

variable {ir : Word} {op : Nat} (hop : fieldD1 ir = op)
include hop

theorem wordNnn_fields : wordNnn op (fieldNnn ir) = ir := by
  have hlt := ir.isLt
  subst hop
  apply BitVec.eq_of_toNat_eq
  simp only [wordNnn, fieldNnn, fieldD1, slice, BitVec.toNat_ofNat]
  omega

theorem wordXkk_fields {low : Nat} (hlow : slice ir 7 0 = low) :
    wordXkk op (fieldX ir) (BitVec.ofNat 8 low) = ir := by
  have hlt := ir.isLt
  subst hop hlow
  apply BitVec.eq_of_toNat_eq
  simp only [wordXkk, fieldX, fieldD1, slice, BitVec.toNat_ofNat, Fin.val_ofNat]
  omega

theorem wordXyn_fields {n : Nat} (hn : fieldN ir = n) : wordXyn op (fieldX ir) (fieldY ir) n = ir := by
  have hlt := ir.isLt
  subst hop hn
  apply BitVec.eq_of_toNat_eq
  simp only [wordXyn, fieldX, fieldY, fieldN, fieldD1, slice, BitVec.toNat_ofNat, Fin.val_ofNat]
  omega

end Fields

/-- Major opcode 0 has no field: the low 12 bits are the word. -/
theorem ofNat_low_of_d1_zero {ir : Word} {low : Nat} (hop : fieldD1 ir = 0) (hlow : slice ir 11 0 = low) :
    BitVec.ofNat 16 low = ir := by
  have hlt := ir.isLt
  subst hlow
  apply BitVec.eq_of_toNat_eq
  simp only [fieldD1, slice, BitVec.toNat_ofNat] at hop ⊢
  omega

theorem fitsAddress_fieldNnn (ir : Word) : fitsAddress (fieldNnn ir) = true := by
  apply decide_eq_true
  simp only [fieldNnn, slice, BitVec.toNat_ofNat]
  omega

theorem fitsHeight_fieldN (ir : Word) : fitsHeight (fieldN ir) = true :=
  decide_eq_true (Nat.mod_lt _ (by decide))

/-! ### Decoding and encoding are inverse -/

/-- Settles O8: each branch of the decoder fixes the major opcode and the low bits that its row fixes, and the word is
the word of these and of the fields the instruction keeps. -/
theorem encodeOfDecodeIsIdentity : Obligations.EncodeOfDecodeIsIdentity := by
  intro ir i h
  unfold decode at h
  split at h
  -- major 0 has no field; 5, 8 and 9 fix the low nibble, E and F the low byte
  case h_1 hop => split at h <;> cases h <;> exact ⟨rfl, ofNat_low_of_d1_zero hop ‹_›⟩
  case h_6 hop | h_9 hop | h_10 hop => split at h <;> cases h <;> exact ⟨rfl, wordXyn_fields hop ‹_›⟩
  case h_15 hop | h_16 hop => split at h <;> cases h <;> exact ⟨rfl, wordXkk_fields hop ‹_›⟩
  all_goals cases h
  -- the majors of format NNN, of format XKK, and DRW
  case h_2 hop | h_3 hop | h_11 hop | h_12 hop => exact ⟨fitsAddress_fieldNnn ir, wordNnn_fields hop⟩
  case h_4 hop | h_5 hop | h_7 hop | h_8 hop | h_13 hop => exact ⟨rfl, wordXkk_fields hop rfl⟩
  case h_14 hop => exact ⟨fitsHeight_fieldN ir, wordXyn_fields hop rfl⟩

/-- Settles O7: each row has its lemma. -/
theorem decodeOfEncodeIsIdentity : Obligations.DecodeOfEncodeIsIdentity := by
  intro i
  cases i with
  | nop => exact Laws.DecodeEncode.nop
  | cls => exact Laws.DecodeEncode.cls
  | ret => exact Laws.DecodeEncode.ret
  | jp nnn => exact Laws.DecodeEncode.jp nnn
  | call nnn => exact Laws.DecodeEncode.call nnn
  | seImm x kk => exact Laws.DecodeEncode.seImm x kk
  | sneImm x kk => exact Laws.DecodeEncode.sneImm x kk
  | seReg x y => exact Laws.DecodeEncode.seReg x y
  | ldImm x kk => exact Laws.DecodeEncode.ldImm x kk
  | addImm x kk => exact Laws.DecodeEncode.addImm x kk
  | ldReg x y => exact Laws.DecodeEncode.ldReg x y
  | orReg x y => exact Laws.DecodeEncode.orReg x y
  | andReg x y => exact Laws.DecodeEncode.andReg x y
  | xorReg x y => exact Laws.DecodeEncode.xorReg x y
  | addReg x y => exact Laws.DecodeEncode.addReg x y
  | subReg x y => exact Laws.DecodeEncode.subReg x y
  | shr x y => exact Laws.DecodeEncode.shr x y
  | subnReg x y => exact Laws.DecodeEncode.subnReg x y
  | shl x y => exact Laws.DecodeEncode.shl x y
  | sneReg x y => exact Laws.DecodeEncode.sneReg x y
  | ldI nnn => exact Laws.DecodeEncode.ldI nnn
  | jpV0 nnn => exact Laws.DecodeEncode.jpV0 nnn
  | rnd x kk => exact Laws.DecodeEncode.rnd x kk
  | drw x y n => exact Laws.DecodeEncode.drw x y n
  | skp x => exact Laws.DecodeEncode.skp x
  | sknp x => exact Laws.DecodeEncode.sknp x
  | ldVxDt x => exact Laws.DecodeEncode.ldVxDt x
  | ldVxK x => exact Laws.DecodeEncode.ldVxK x
  | ldDtVx x => exact Laws.DecodeEncode.ldDtVx x
  | ldStVx x => exact Laws.DecodeEncode.ldStVx x
  | addI x => exact Laws.DecodeEncode.addI x
  | ldF x => exact Laws.DecodeEncode.ldF x
  | ldB x => exact Laws.DecodeEncode.ldB x
  | storeRegs x => exact Laws.DecodeEncode.storeRegs x
  | loadRegs x => exact Laws.DecodeEncode.loadRegs x

/-! ### The rows of the opcode table (R76) -/

/-- A row that fixes the major opcode alone. -/
theorem OpcodeRow.covers_major {v : Word} (hv : v.toNat % 4096 = 0) (ir : Word) :
    OpcodeRow.covers ⟨0xF000, v⟩ ir = decide (fieldD1 ir = v.toNat / 4096) := by
  have hlt := ir.isLt
  rw [OpcodeRow.covers_eq, decide_eq_decide]
  simp only [and_mask_major, fieldD1, slice]
  omega

/-- A row that fixes the major opcode and the low nibble. -/
theorem OpcodeRow.covers_nibble {v : Word} (hv : v.toNat % 4096 < 16) (ir : Word) :
    OpcodeRow.covers ⟨0xF00F, v⟩ ir = decide (fieldD1 ir = v.toNat / 4096 ∧ fieldN ir = v.toNat % 4096) := by
  have hlt := ir.isLt
  rw [OpcodeRow.covers_eq, decide_eq_decide]
  simp only [and_mask_nibble, fieldD1, fieldN, slice]
  omega

/-- A row that fixes the major opcode and the low byte. -/
theorem OpcodeRow.covers_byte {v : Word} (hv : v.toNat % 4096 < 256) (ir : Word) :
    OpcodeRow.covers ⟨0xF0FF, v⟩ ir = decide (fieldD1 ir = v.toNat / 4096 ∧ slice ir 7 0 = v.toNat % 4096) := by
  have hlt := ir.isLt
  rw [OpcodeRow.covers_eq, decide_eq_decide]
  simp only [and_mask_byte, fieldD1, slice]
  omega

/-- A row that fixes every bit. -/
theorem OpcodeRow.covers_all (v ir : Word) :
    OpcodeRow.covers ⟨0xFFFF, v⟩ ir = decide (fieldD1 ir = v.toNat / 4096 ∧ slice ir 11 0 = v.toNat % 4096) := by
  have hlt := ir.isLt
  rw [OpcodeRow.covers_eq, decide_eq_decide]
  simp only [and_mask_all, fieldD1, slice]
  omega

theorem opcodeRows_nodup : opcodeRows.Nodup := by decide

/-- Two rows fix a bit that their masks share to different values. -/
theorem opcodeRows_disjoint :
    ∀ r ∈ opcodeRows, ∀ r' ∈ opcodeRows, r.value &&& r'.mask = r'.value &&& r.mask → r = r' := by decide

theorem eq_of_covers {r r' : OpcodeRow} (hr : r ∈ opcodeRows) (hr' : r' ∈ opcodeRows) {ir : Word}
    (hc : r.covers ir = true) (hc' : r'.covers ir = true) : r = r' := by
  have hv : ir &&& r.mask = r.value := by simpa [OpcodeRow.covers] using hc
  have hv' : ir &&& r'.mask = r'.value := by simpa [OpcodeRow.covers] using hc'
  refine opcodeRows_disjoint r hr r' hr' ?_
  rw [← hv, ← hv', BitVec.and_assoc, BitVec.and_assoc, BitVec.and_comm r.mask]

/-- The decoder accepts the words that a row covers: its branches test what the rows fix. -/
theorem decode_isOk_iff (ir : Word) : (∃ i, decode ir = .ok i) ↔ ∃ r ∈ opcodeRows, r.covers ir = true := by
  simp only [opcodeRows, opcodeRowsLow, opcodeRowsMid, opcodeRowsHigh, List.cons_append, List.nil_append,
    List.mem_cons, List.not_mem_nil, exists_eq_or_imp, or_false, exists_eq_left]
  simp (disch := decide) only [OpcodeRow.covers_major, OpcodeRow.covers_nibble, OpcodeRow.covers_byte,
    OpcodeRow.covers_all]
  simp only [BitVec.reduceToNat, Nat.reduceDiv, Nat.reduceMod, decide_eq_true_eq]
  unfold decode
  split
  -- the majors 0, 5, 8, 9, E and F, whose rows fix low bits too
  case h_1 hop | h_6 hop | h_9 hop | h_10 hop | h_15 hop | h_16 hop => split <;> simp_all
  all_goals simp_all

theorem decode_error_eq {ir : Word} {e : DecodeError} (h : decode ir = .error e) : e = .unknownOpcode ir := by
  unfold decode at h
  split at h
  case h_1 | h_6 | h_9 | h_10 | h_15 | h_16 => (split at h <;> cases h); rfl
  all_goals cases h
  rfl

/-- Settles O9: a word that decodes is covered by a row, and by no other since the rows are disjoint; a word that does
not is covered by none. -/
theorem decoderAcceptsExactlyTheTable : Obligations.DecoderAcceptsExactlyTheTable := by
  refine fun ir => ⟨fun i hok => ?_, fun e herr => ⟨decode_error_eq herr, ?_⟩⟩
  · obtain ⟨r, hr, hc⟩ := (decode_isOk_iff ir).1 ⟨i, hok⟩
    have honly : opcodeRows.filter (·.covers ir) = opcodeRows.filter (· == r) :=
      List.filter_congr fun r' hr' => by
        rw [Bool.eq_iff_iff, beq_iff_eq]
        exact ⟨fun hc' => eq_of_covers hr' hr hc' hc, fun heq => heq ▸ hc⟩
    rw [honly, ← List.countP_eq_length_filter]
    exact List.count_eq_one_of_mem opcodeRows_nodup hr
  · rw [List.filter_eq_nil_iff]
    intro r hr hc
    obtain ⟨i, hok⟩ := (decode_isOk_iff ir).2 ⟨r, hr, hc⟩
    rw [herr] at hok
    cases hok

/-- Settles O10: each word by evaluation. -/
theorem sampleWordsDecode : Obligations.SampleWordsDecode := by
  unfold Obligations.SampleWordsDecode
  decide

end Sys2Proof
end

section
/-! SUPPORT. What an instruction that completes leaves in each element of the state, and the obligations that say so:
which faults an instruction raises (spec/60_exceptions.md R200), the registers (spec/10_state.md R21, R22), the timers
(R32), the frame buffer and the keys (R33, R34), memory (spec/20_memory.md R60). -/

namespace Sys2Proof.Machine

/-! ### The fault of an instruction, or its completion (R200) -/

/-- An instruction that raises its fault. -/
theorem exec_of_faultOf {i : Instr} {s : State} {f : Fault} (hfault : faultOf i s = some f) :
    exec i s = .next (haltedBy f i s) := by
  rw [exec_eq, hfault]; rfl

/-- An instruction that raises none. -/
theorem exec_of_noFault {i : Instr} {s : State} (hfault : faultOf i s = none) : exec i s = .next (completed i s) := by
  rw [exec_eq, hfault]

/-- Completing neither presses a key nor halts the core. -/
theorem completed_keys_halted (i : Instr) (s : State) :
    (completed i s).keys = s.keys ∧ (completed i s).halted = s.halted := by
  cases i with
  | seImm | sneImm | seReg | sneReg | skp | sknp => exact ⟨State.skipIf_keys _ _, State.skipIf_halted _ _⟩
  | ldVxK x => cases hk : s.lowestKey <;> simp [completed, hk]
  | nop | cls | ret | jp | call | jpV0 | ldImm | addImm | ldReg | orReg | andReg | xorReg => exact ⟨rfl, rfl⟩
  | addReg | subReg | shr | subnReg | shl | rnd | drw | ldI | addI | ldF => exact ⟨rfl, rfl⟩
  | ldVxDt | ldDtVx | ldStVx | ldB | storeRegs | loadRegs => exact ⟨rfl, rfl⟩

/-- Settles O14: `exec_eq` with the two outcomes apart; completing keeps `halted`. -/
theorem instructionsFaultExactlyWhenTheTableSays : Obligations.InstructionsFaultExactlyWhenTheTableSays :=
  fun i s => ⟨fun _ => exec_of_faultOf, fun hnone => ⟨_, exec_of_noFault hnone, (completed_keys_halted i s).2⟩⟩

/-! ### Memory: the bytes an instruction stores at `I` (R143, R144) -/

/-- The bytes an instruction stores from `I` up. -/
def storedBytes (i : Instr) (s : State) : List Byte :=
  match i with
  | .ldB x => decimalDigits (s.reg x)
  | .storeRegs x => s.regsUpTo x
  | _ => []

/-- Completing writes the stored bytes to memory, and nothing else. -/
theorem completed_mem (i : Instr) (s : State) :
    (completed i s).mem = s.mem.writeSeq s.i.toNat (storedBytes i s) := by
  cases i with
  | seImm | sneImm | seReg | sneReg | skp | sknp => exact State.skipIf_mem s.advancePc _
  | ldVxK x => cases hk : s.lowestKey <;> simp [completed, hk, storedBytes, Memory.writeSeq]
  | nop | cls | ret | jp | call | jpV0 | ldImm | addImm | ldReg | orReg | andReg | xorReg => rfl
  | addReg | subReg | shr | subnReg | shl | rnd | drw | ldI | addI | ldF => rfl
  | ldVxDt | ldDtVx | ldStVx | ldB | storeRegs | loadRegs => rfl

/-- An instruction that raises no fault stores inside memory. -/
theorem storedBytes_fit {i : Instr} {s : State} (hnofault : faultOf i s = none) :
    storedBytes i s = [] ∨ s.i.toNat + (storedBytes i s).length ≤ Config.memSize := by
  cases i with
  | ldB x => exact .inr (by simpa [storedBytes, Config.memSize] using accessFault_none.1 hnofault)
  | storeRegs x => exact .inr (by simpa [storedBytes, Config.memSize] using accessFault_none.1 hnofault)
  | _ => exact .inl rfl

/-! ### The screen (R33) and the timers (R32) -/

/-- Completing keeps the frame buffer, or is CLS or DRW. -/
theorem completed_fb (i : Instr) (s : State) :
    (completed i s).fb = s.fb ∨ i = .cls ∨ ∃ x y n, i = .drw x y n := by
  cases i with
  | cls => exact .inr (.inl rfl)
  | drw x y n => exact .inr (.inr ⟨x, y, n, rfl⟩)
  | seImm | sneImm | seReg | sneReg | skp | sknp => exact .inl (State.skipIf_fb s.advancePc _)
  | ldVxK x => left; cases hk : s.lowestKey <;> simp [completed, hk]
  | nop | ret | jp | call | jpV0 | ldImm | addImm | ldReg | orReg | andReg | xorReg => exact .inl rfl
  | addReg | subReg | shr | subnReg | shl | rnd | ldI | addI | ldF => exact .inl rfl
  | ldVxDt | ldDtVx | ldStVx | ldB | storeRegs | loadRegs => exact .inl rfl

/-- Completing keeps `DT`, or is LD DT,Vx. -/
theorem completed_dt (i : Instr) (s : State) :
    (completed i s).dt = s.dt ∨ ∃ x, i = .ldDtVx x ∧ (completed i s).dt = s.reg x := by
  cases i with
  | ldDtVx x => exact .inr ⟨x, rfl, rfl⟩
  | seImm | sneImm | seReg | sneReg | skp | sknp => exact .inl (State.skipIf_dt s.advancePc _)
  | ldVxK x => left; cases hk : s.lowestKey <;> simp [completed, hk]
  | nop | cls | ret | jp | call | jpV0 | ldImm | addImm | ldReg | orReg | andReg | xorReg => exact .inl rfl
  | addReg | subReg | shr | subnReg | shl | rnd | drw | ldI | addI | ldF => exact .inl rfl
  | ldVxDt | ldStVx | ldB | storeRegs | loadRegs => exact .inl rfl

/-- Completing keeps `ST`, or is LD ST,Vx. -/
theorem completed_st (i : Instr) (s : State) :
    (completed i s).st = s.st ∨ ∃ x, i = .ldStVx x ∧ (completed i s).st = s.reg x := by
  cases i with
  | ldStVx x => exact .inr ⟨x, rfl, rfl⟩
  | seImm | sneImm | seReg | sneReg | skp | sknp => exact .inl (State.skipIf_st s.advancePc _)
  | ldVxK x => left; cases hk : s.lowestKey <;> simp [completed, hk]
  | nop | cls | ret | jp | call | jpV0 | ldImm | addImm | ldReg | orReg | andReg | xorReg => exact .inl rfl
  | addReg | subReg | shr | subnReg | shl | rnd | drw | ldI | addI | ldF => exact .inl rfl
  | ldVxDt | ldDtVx | ldB | storeRegs | loadRegs => exact .inl rfl

/-- Settles O52: a fault keeps all three, and completing changes each as its lemma says. -/
theorem screenKeysAndMemoryHaveTheirWriters : Obligations.ScreenKeysAndMemoryHaveTheirWriters := by
  intro i s t hexec
  obtain ⟨f, -, rfl⟩ | ⟨-, rfl⟩ := exec_cases hexec
  · exact ⟨.inl rfl, rfl, .inl fun _ => rfl⟩
  refine ⟨completed_fb i s, (completed_keys_halted i s).1, ?memory⟩
  case memory =>
    cases i with
    | ldB x => exact .inr (.inl ⟨x, rfl, fun a ha => Memory.read_writeSeq_outside (by simpa using ha)⟩)
    | storeRegs x => exact .inr (.inr ⟨x, rfl, fun a ha => Memory.read_writeSeq_outside (by simpa using ha)⟩)
    | _ => exact .inl fun a => congrArg (Memory.read · a) (completed_mem _ s)

/-- The state with another `ST`. -/
abbrev State.withSt (s : State) (b : Byte) : State := { s with st := b }

/-- Whether an instruction faults does not depend on `ST`. -/
theorem faultOf_withSt (i : Instr) (s : State) (b : Byte) : faultOf i (s.withSt b) = faultOf i s := by
  cases i <;> rfl

/-- A skip does not read `ST`. -/
theorem skipIf_withSt (s : State) (c : Bool) (b : Byte) :
    ((s.withSt b).skipIf c).withSt (s.skipIf c).st = s.skipIf c := by
  cases c <;> rfl

/-- No instruction reads `ST`: with another one it leaves the same state but for it. -/
theorem completed_withSt (i : Instr) (s : State) (b : Byte) :
    (completed i (s.withSt b)).withSt (completed i s).st = completed i s := by
  cases i with
  | seImm | sneImm | seReg | sneReg | skp | sknp => exact skipIf_withSt s.advancePc _ b
  | ldVxK x =>
    have hkeys : (s.withSt b).lowestKey = s.lowestKey := rfl
    cases hk : s.lowestKey <;> simp only [completed, hkeys, hk] <;> rfl
  | nop | cls | ret | jp | call | jpV0 | ldImm | addImm | ldReg | orReg | andReg | xorReg => rfl
  | addReg | subReg | shr | subnReg | shl | rnd | drw | ldI | addI | ldF => rfl
  | ldVxDt | ldDtVx | ldStVx | ldB | storeRegs | loadRegs => rfl

/-- Settles O51: a fault keeps both timers and is raised whatever `ST` is; completing writes them only as LD DT,Vx and
LD ST,Vx and reads no `ST`. -/
theorem timersAreWrittenOnlyByTheirInstructions : Obligations.TimersAreWrittenOnlyByTheirInstructions := by
  intro i s t t' b
  refine ⟨fun hexec => ?dt, fun hexec => ?st, fun hexec hexec' => ?unread⟩
  case dt =>
    obtain ⟨f, -, rfl⟩ | ⟨-, rfl⟩ := exec_cases hexec
    · exact .inl rfl
    · exact completed_dt i s
  case st =>
    obtain ⟨f, -, rfl⟩ | ⟨-, rfl⟩ := exec_cases hexec
    · exact .inl rfl
    · exact completed_st i s
  case unread =>
    rw [exec_eq] at hexec hexec'
    rw [faultOf_withSt i s b] at hexec'
    cases hfault : faultOf i s with
    | some f => rw [hfault] at hexec hexec'; cases hexec; cases hexec'; rfl
    | none => rw [hfault] at hexec hexec'; cases hexec; cases hexec'; exact completed_withSt i s b

/-! ### The registers (R21, R22) -/

theorem setReg_reg_ne {r x : Reg} (hne : r ≠ x) (s : State) (b : Byte) : (s.setReg x b).reg r = s.reg r := by
  rw [State.setReg_reg, if_neg hne]

/-- LD Vx,[I] keeps the registers above `x` (R145). -/
theorem completed_loadRegs_reg (x : Reg) (s : State) (r : Reg) :
    (completed (.loadRegs x) s).reg r = if r ≤ x then s.mem.read (s.i.toNat + r.val) else s.reg r := by
  have hlt : r ≤ x ↔ r.val < x.val + 1 := by rw [Fin.le_def]; omega
  have hloaded := loadSeq_get s.v 0 ((List.range (x.val + 1)).map fun k => s.mem.read (s.i.toNat + k)) r
  simp only [List.length_map, List.length_range, Nat.zero_le, true_and, Nat.zero_add, Nat.sub_zero, ← hlt] at hloaded
  refine hloaded.trans (ite_congr rfl (fun hr => ?_) fun _ => rfl)
  simp [hlt.1 hr]

/-- Completing writes only the registers that `writesReg` lists. -/
theorem completed_reg {i : Instr} {r : Reg} (hkept : writesReg i r = false) (s : State) :
    (completed i s).reg r = s.reg r := by
  cases i with
  | ldImm | addImm | ldReg | orReg | andReg | xorReg | rnd | ldVxDt | drw =>
    exact setReg_reg_ne (by simpa [writesReg] using hkept) _ _
  | addReg | subReg | shr | subnReg | shl =>
    obtain ⟨hx, hvf⟩ : r ≠ _ ∧ r ≠ Reg.vf := by simpa [writesReg] using hkept
    simp [completed, State.shiftRight, State.shiftLeft, hx, hvf]
  | ldVxK x =>
    have hx : r ≠ x := by simpa [writesReg] using hkept
    cases hk : s.lowestKey <;> simp [completed, hk, hx]
  | loadRegs x => rw [completed_loadRegs_reg, if_neg (by simpa [writesReg] using hkept)]
  | seImm | sneImm | seReg | sneReg | skp | sknp => exact State.skipIf_reg s.advancePc _ r
  | nop | cls | ret | jp | call | jpV0 | ldI | addI | ldF | ldB | storeRegs | ldDtVx | ldStVx => rfl

/-- Settles O48: a fault keeps every register, and completing writes those that `writesReg` lists. -/
theorem otherRegistersKeepTheirValue : Obligations.OtherRegistersKeepTheirValue := by
  intro i s t r hexec hkept
  obtain ⟨f, -, rfl⟩ | ⟨-, rfl⟩ := exec_cases hexec
  · rfl
  · exact completed_reg hkept s

/-- Settles O49: an instruction that writes VF is one of those listed, and every other one keeps it. -/
theorem onlyFlagWritersAndDestinationsChangeVf : Obligations.OnlyFlagWritersAndDestinationsChangeVf := by
  refine ⟨by simp [State.reg, State.reset], fun i s t hexec => ?_⟩
  cases hwrites : writesReg i Reg.vf with
  | false => exact .inl (otherRegistersKeepTheirValue i s t Reg.vf hexec hwrites)
  | true =>
    right
    cases i with
    | addReg | subReg | shr | subnReg | shl | drw => exact .inl rfl
    | ldImm x kk | addImm x kk | rnd x kk =>
      obtain rfl : Reg.vf = x := by simpa [writesReg] using hwrites
      simp
    | ldReg x y | orReg x y | andReg x y | xorReg x y =>
      obtain rfl : Reg.vf = x := by simpa [writesReg] using hwrites
      simp
    | ldVxDt x | ldVxK x =>
      obtain rfl : Reg.vf = x := by simpa [writesReg] using hwrites
      simp
    | loadRegs x =>
      obtain rfl : x = Reg.vf := Fin.last_le_iff.1 (by simpa [writesReg] using hwrites)
      simp
    | _ => simp [writesReg] at hwrites

end Sys2Proof.Machine
end

section
/-! SUPPORT. The obligations about the step cycle and its faults (spec/30_encoding.md R71, R75, R77;
spec/60_exceptions.md R200-R204): a fetch or a decode that fails, what a faulting step changes, a step that always
answers. -/

namespace Sys2Proof.Machine

/-! ### Fetching and decoding that fail -/

/-- Settles O12: the fetch of two bytes above 0xFFE is an access that leaves memory. -/
theorem fetchOutsideMemoryHalts : Obligations.FetchOutsideMemoryHalts :=
  fun _ hrunning hpc => step_fetch_fault hrunning (accessFault_some ⟨by decide, by omega⟩)

/-- Settles O13: a word that no row covers does not decode. -/
theorem unknownWordHalts : Obligations.UnknownWordHalts := by
  intro s hrunning hpc huncovered
  cases hdecode : decode s.wordAtPc with
  | error e => exact step_unknown hrunning (accessFault_fetch_none hpc) hdecode
  | ok i =>
    obtain ⟨r, hr, hcovers⟩ := (decode_isOk_iff s.wordAtPc).1 ⟨i, hdecode⟩
    rw [huncovered r hr] at hcovers
    cases hcovers

/-- The fetch raises no fault exactly when `pc` is at most 0xFFE. -/
theorem accessFault_fetch_none_iff {pc : Nat} : accessFault pc 2 = none ↔ pc ≤ 0xFFE := by
  rw [accessFault_none]
  omega

/-- A running core's step that fetches an instruction executes it. -/
theorem step_of_fetches {s : State} {i : Instr} (hrunning : s.Running) (hfetch : s.Fetches i) : step s = exec i s :=
  step_exec hrunning (accessFault_fetch_none hfetch.1) hfetch.2

/-! ### What a faulting step changes (R201, R202) -/

/-- Settles O15: the fetch, the decode and the instruction each end in the state before the step with the fault taken;
the instruction's encoding is the word fetched. -/
theorem faultingStepIsAtomic : Obligations.FaultingStepIsAtomic := by
  intro s t hrunning hstep hhalted
  obtain ⟨r, hs, -⟩ | ⟨f, -, hfetch, hnext⟩ | ⟨-, hfetch, -, hnext⟩ | ⟨i, -, hfetch, hdecode, hnext⟩ := step_cases s
  · rw [hrunning] at hs; cases hs
  · have hpc : ¬ s.pc.toNat ≤ 0xFFE := fun hle => by rw [accessFault_fetch_none hle] at hfetch; cases hfetch
    rw [hnext] at hstep
    cases hstep
    exact ⟨f, by rw [if_neg hpc]; rfl⟩
  · rw [hnext] at hstep
    cases hstep
    exact ⟨.unknownOpcode, by rw [if_pos (accessFault_fetch_none_iff.1 hfetch)]; rfl⟩
  · rw [hnext] at hstep
    obtain ⟨f, -, rfl⟩ | ⟨-, rfl⟩ := exec_cases hstep
    · obtain ⟨-, hword⟩ := encodeOfDecodeIsIdentity s.wordAtPc i hdecode
      exact ⟨f, by rw [if_pos (accessFault_fetch_none_iff.1 hfetch), hword]; rfl⟩
    · exact absurd ((completed_keys_halted i s).2.trans hrunning) hhalted

/-- Settles O16: the code and the info are functions of the fault alone. -/
theorem faultRecordsCarryCodeAndInfo : Obligations.FaultRecordsCarryCodeAndInfo :=
  fun _ _ _ _ => ⟨rfl, rfl, rfl, rfl, rfl⟩

/-- Settles O18: `step_total`. -/
theorem everyStepAnswersANextState : Obligations.EveryStepAnswersANextState :=
  step_total

/-! ### What a step keeps -/

/-- What holds of the state before a step holds after it when taking a fault and completing an instruction keep it. -/
theorem step_induction {P : State → Prop} {s t : State} (hs : P s)
    (hfault : ∀ f ir, P (s.takeFault f ir))
    (hcompleted : ∀ i, s.Running → s.Fetches i → faultOf i s = none → P (completed i s))
    (hstep : step s = .next t) : P t := by
  obtain ⟨r, -, hnext⟩ | ⟨f, -, -, hnext⟩ | ⟨-, -, -, hnext⟩ | ⟨i, hrunning, hfetch, hdecode, hnext⟩ := step_cases s
  · rw [hnext] at hstep; cases hstep; exact hs
  · rw [hnext] at hstep; cases hstep; exact hfault f none
  · rw [hnext] at hstep; cases hstep; exact hfault .unknownOpcode _
  · rw [hnext] at hstep
    obtain ⟨f, -, rfl⟩ | ⟨hnofault, rfl⟩ := exec_cases hstep
    · exact hfault f _
    · exact hcompleted i hrunning ⟨accessFault_fetch_none_iff.1 hfetch, hdecode⟩ hnofault

end Sys2Proof.Machine
end

section
/-! SUPPORT. The obligations about the invariant (spec/10_state.md R28, spec/20_memory.md): memory stays canonical,
`pc` and the stack entries stay within their bounds, from reset on and through every host operation. -/

namespace Sys2Proof.Machine

/-! ### A step keeps memory canonical -/

/-- An instruction that raises no fault keeps memory canonical: what it stores lies in memory. -/
theorem completed_memory_wf {i : Instr} {s : State} (hwf : s.mem.wf) (hnofault : faultOf i s = none) :
    (completed i s).mem.wf := by
  rw [completed_mem]
  obtain hnone | hfit := storedBytes_fit hnofault
  · rw [hnone]; exact hwf
  · exact Memory.wf_writeSeq hwf hfit

/-- Settles O4: a fault keeps memory, and an instruction that completes keeps it canonical. -/
theorem stepKeepsMemoryCanonical : Obligations.StepKeepsMemoryCanonical := fun _ _ hwf =>
  step_induction (P := fun u => u.mem.wf) hwf (fun _ _ => hwf) fun _ _ _ => completed_memory_wf hwf

/-! ### A step keeps the bounds of R28 -/

theorem add_two_toNat_le {pc : Word} (hpc : pc.toNat ≤ 0xFFE) : (pc + 2).toNat ≤ 0x1000 := by bv_omega

theorem add_four_toNat_le {pc : Word} (hpc : pc.toNat ≤ 0xFFE) : (pc + 2 + 2).toNat ≤ 0x10FE := by bv_omega

theorem fitsAddress_iff {nnn : Word} : fitsAddress nnn = true ↔ nnn.toNat < 4096 := decide_eq_true_iff

/-- The target of Bnnn: a byte and a 12-bit address sum to at most 0x10FE (R109). -/
theorem indexedTarget_toNat_le {nnn : Word} (hnnn : fitsAddress nnn = true) (b : Byte) :
    (indexedTarget b nnn).toNat ≤ 0x10FE := by
  have hfit := fitsAddress_iff.1 hnnn
  have hbyte := b.isLt
  rw [indexedTarget_toNat]
  omega

/-- After an instruction fetched from memory, `pc` is within its bound. -/
theorem completed_pc_le {i : Instr} {s : State} (hwf : i.wellFormed = true) (hpc : s.pc.toNat ≤ 0xFFE)
    (hstack : ∀ j : Fin 16, (s.stack[j.val]).toNat ≤ 0x1000) (hnofault : faultOf i s = none) :
    (completed i s).pc.toNat ≤ 0x10FE := by
  have hadvance := add_two_toNat_le hpc
  cases hskip : skips i with
  | true =>
    obtain heq | heq := completed_pc_of_skips hskip s
    · rw [heq]; omega
    · rw [heq]; exact add_four_toNat_le hpc
  | false =>
    cases hset : setsPc i with
    | false => rw [completed_pc_of_plain hset hskip]; omega
    | true =>
      cases i with
      | ret =>
        have hsp : s.sp.val ≠ 0 := fun hzero => by simp [faultOf, hzero] at hnofault
        have hlt := s.sp.isLt
        rw [completed_ret_pc (j := ⟨s.sp.val - 1, by omega⟩) (by simp; omega)]
        exact (hstack _).trans (by decide)
      | jp nnn | call nnn => exact (fitsAddress_iff.1 hwf).le.trans (by decide)
      | jpV0 nnn => exact indexedTarget_toNat_le hwf (s.reg 0)
      | ldVxK x =>
        rw [completed_ldVxK_pc, BitVec.add_sub_cancel]
        split <;> omega
      | _ => simp [setsPc] at hset

/-- After an instruction fetched from memory, every stack entry is within its bound. -/
theorem completed_stack_le {s : State} (hpc : s.pc.toNat ≤ 0xFFE)
    (hstack : ∀ j : Fin 16, (s.stack[j.val]).toNat ≤ 0x1000) (i : Instr) (j : Fin 16) :
    ((completed i s).stack[j.val]).toNat ≤ 0x1000 := by
  by_cases hcall : ∃ nnn, i = .call nnn
  · obtain ⟨nnn, rfl⟩ := hcall
    simp only [completed, Vector.getElem_setIfInBounds]
    split
    · exact add_two_toNat_le hpc
    · exact hstack j
  · simp only [completed_stack (not_exists.1 hcall) s]
    exact hstack j

/-- Settles O5: a fault keeps `pc` and the stack, and an instruction that completes was decoded from the two bytes at a
`pc` of at most 0xFFE, so its operands fit their fields. -/
theorem stepKeepsPcBounded : Obligations.StepKeepsPcBounded := by
  intro s t hbounded
  refine step_induction (P := State.PcBounded) hbounded (fun _ _ => hbounded) ?_
  intro i _ ⟨hpc, hdecode⟩ hnofault
  have hwf := (encodeOfDecodeIsIdentity s.wordAtPc i hdecode).1
  exact ⟨completed_pc_le hwf hpc hbounded.2 hnofault, completed_stack_le hpc hbounded.2 i⟩

/-! ### The invariant at reset -/

/-- The bounds say nothing of memory and of the count of draws, in which alone `create` and the host's `reset()` differ
from `State.reset`. -/
theorem pcBounded_reset (m : Memory) (d : Nat) : ({ State.reset with mem := m, draws := d } : State).PcBounded :=
  ⟨(by decide : (0x200 : Word).toNat ≤ 0x10FE), by simp [State.reset]⟩

theorem create_memory_wf (font : Vector Byte 80) (tail : Vector Byte 4016) : (create font tail).mem.wf :=
  Memory.wf_writeSeq Memory.wf_nil (by simp [Config.memSize])

/-- Settles O3: `FONT` and the tail fill the 4096 bytes of memory in order, and the bounds hold of `State.reset`. -/
theorem invariantHoldsAtReset : Obligations.InvariantHoldsAtReset :=
  ⟨⟨Memory.wf_nil, pcBounded_reset _ _⟩, fun font tail _ =>
    ⟨⟨create_memory_wf font tail, pcBounded_reset _ _⟩, create_memory_wf font tail, pcBounded_reset _ _⟩⟩

/-! ### The host's operations keep the invariant -/

theorem step_keeps_inv {s t : State} (hinv : s.Inv) (hstep : step s = .next t) : t.Inv :=
  ⟨stepKeepsMemoryCanonical s t hinv.1 hstep, stepKeepsPcBounded s t hinv.2 hstep⟩

theorem load_keeps_inv {s : State} (hinv : s.Inv) (rom : List Byte) : (s.load rom).Inv := by
  unfold State.load
  split
  · exact ⟨Memory.wf_writeSeq hinv.1 (of_decide_eq_true ‹_›), hinv.2⟩
  · exact hinv

/-- A step, as the host sees it. -/
theorem step_of_hostApply {s t : State} {r : HostReply} (happly : hostApply .step s = .next (t, r)) :
    step s = .next t := by
  obtain ⟨u, hstep⟩ := step_total s
  rw [hostApply_step hstep] at happly
  cases happly
  exact hstep

/-- Settles O59: a reset establishes the invariant; a step and a load keep it; the other operations write neither memory
nor `pc` nor the stack. -/
theorem hostOperationsKeepTheInvariant : Obligations.HostOperationsKeepTheInvariant := by
  intro op s t r hinv happly
  cases op with
  | step => exact step_keeps_inv hinv (step_of_hostApply happly)
  | reset font tail => cases happly; exact (invariantHoldsAtReset.2 font tail s).2
  | load rom => cases happly; exact load_keeps_inv hinv rom
  | tickTimers | setKey | clearKey | frameBuffer | status => cases happly; exact hinv

theorem hostApply_total (op : HostOp) (s : State) : ∃ t r, hostApply op s = .next (t, r) := by
  cases op with
  | step =>
    obtain ⟨t, hstep⟩ := step_total s
    exact ⟨_, _, hostApply_step hstep⟩
  | reset | load | tickTimers | setKey | clearKey | frameBuffer | status => exact ⟨_, _, rfl⟩

/-- From a state with the invariant, every sequence of host operations runs to its end and keeps the invariant. -/
theorem hostRun_keeps_inv (ops : List HostOp) {s : State} (hinv : s.Inv) : ∃ t, hostRun ops s = .next t ∧ t.Inv := by
  induction ops generalizing s with
  | nil => exact ⟨s, rfl, hinv⟩
  | cons op ops ih =>
    obtain ⟨t, r, happly⟩ := hostApply_total op s
    rw [hostRun_cons happly]
    exact ih (hostOperationsKeepTheInvariant op s t r hinv happly)

/-- Settles O6: the invariant holds after `create`, and every operation keeps it. -/
theorem everyHostScheduleRunsAndKeepsInvariant : Obligations.EveryHostScheduleRunsAndKeepsInvariant :=
  fun font tail ops => hostRun_keeps_inv ops (invariantHoldsAtReset.2 font tail State.reset).1

/-! ### Memory after a reset (R55, R231) -/

theorem create_mem_read {font : Vector Byte 80} {tail : Vector Byte 4016} {a : Nat} (ha : a < 4096) :
    (create font tail).mem.read a = (font.toList ++ tail.toList).getD a 0 := by
  have hread := Memory.read_writeSeq_add (m := []) (a := 0) (vs := font.toList ++ tail.toList)
    (show a < _ by simpa using ha)
  rwa [Nat.zero_add] at hread

theorem create_mem_read_font (font : Vector Byte 80) (tail : Vector Byte 4016) (k : Fin 80) :
    (create font tail).mem.read k.val = font[k.val] := by
  have hk : k.val < font.toList.length := by simp
  rw [create_mem_read (by omega), List.getD_append _ _ _ _ hk]
  simp

theorem create_mem_read_tail (font : Vector Byte 80) (tail : Vector Byte 4016) (k : Fin 4016) :
    (create font tail).mem.read (80 + k.val) = tail[k.val] := by
  have hk : font.toList.length ≤ 80 + k.val := by simp
  rw [create_mem_read (by omega), List.getD_append_right _ _ _ _ hk]
  simp

/-- Settles O2: the host's reset is `create` but for the draws, and `create` writes `FONT` and the tail in order. -/
theorem resetMemoryHoldsFontAndTail : Obligations.ResetMemoryHoldsFontAndTail := by
  refine fun font tail s => ⟨rfl, rfl, ?_⟩
  have hcreate := create_mem_read_font font tail
  have htail := create_mem_read_tail font tail
  rintro u (rfl | happly)
  · exact ⟨rfl, rfl, hcreate, htail⟩
  · cases happly
    exact ⟨rfl, rfl, hcreate, htail⟩

end Sys2Proof.Machine
end

section
/-! SUPPORT. The obligations about jumps, calls and returns (spec/40_control_flow.md): the indexed jump (R109), the
self-jump (R103), CALL and RET (R102, R104), and the round trip of a call (R112). -/

namespace Sys2Proof.Machine

/-! ### Jumps -/

/-- Settles O22: the target is taken modulo 65536, and nothing else is written. -/
theorem indexedJumpSetsPc : Obligations.IndexedJumpSetsPc := fun nnn s =>
  ⟨s.jumpTo (indexedTarget (s.reg 0) nnn), exec_eq (.jpV0 nnn) s, indexedTarget_toNat (s.reg 0) nnn,
    changesOnlyPc_jumpTo s _⟩

/-- A state that a step does not change is not changed by any number of steps. -/
theorem steps_of_fixed {s : State} (hfixed : step s = .next s) (n : Nat) : steps n s = .next s := by
  induction n with
  | zero => rfl
  | succ n ih => rw [steps_succ hfixed, ih]

/-- Settles O27: a jump to its own address leaves the state as it is. -/
theorem selfJumpLoopsForever : Obligations.SelfJumpLoopsForever :=
  fun s n hrunning hfetch => steps_of_fixed ((step_of_fetches hrunning hfetch).trans (exec_eq (.jp s.pc) s)) n

/-! ### CALL and RET (R102, R104) -/

theorem changesOnlyStack_update (s : State) (pc : Word) (stack : Vector Word 16) (sp : Fin 17) :
    ChangesOnlyStack s { s with pc := pc, stack := stack, sp := sp } :=
  ⟨fun _ _ => rfl, rfl, fun _ => rfl, ⟨rfl, rfl⟩, rfl, ⟨rfl, rfl, rfl⟩⟩

/-- Settles O23: with room CALL writes the entry at `SP`, and on a full stack it takes the fault. -/
theorem callPushesAndJumps : Obligations.CallPushesAndJumps := by
  refine fun nnn s => ⟨fun hroom => ?room, fun hfull => ?full⟩
  case room =>
    refine ⟨_, execCall_ok hroom nnn, rfl, rfl, fun j => ?_, changesOnlyStack_update s _ _ _⟩
    simp only [Vector.getElem_set, eq_comm]
  case full => exact ⟨_, execCall_full (by omega) nnn, rfl⟩

/-- Settles O24: with an entry RET reads it and lowers `SP`, and on an empty stack it takes the fault. -/
theorem returnPopsIntoPc : Obligations.ReturnPopsIntoPc := by
  refine fun s => ⟨fun j hsp => ?entry, fun hempty => ?empty⟩
  case entry =>
    have hj : s.sp.val - 1 = j.val := by omega
    refine ⟨_, execRet_ok (by omega), ?_, hj, rfl, changesOnlyStack_update s _ _ _⟩
    simp only [hj]
  case empty => exact ⟨_, execRet_empty (by omega), rfl⟩

/-! ### Entries in use (R112) -/

/-- Only CALL and RET move `SP`. -/
theorem completed_sp {i : Instr} (hcall : ∀ nnn, i ≠ .call nnn) (hret : i ≠ .ret) (s : State) :
    (completed i s).sp = s.sp := by
  cases i with
  | call nnn => exact absurd rfl (hcall nnn)
  | ret => exact absurd rfl hret
  | seImm | sneImm | seReg | sneReg | skp | sknp => exact State.skipIf_sp s.advancePc _
  | ldVxK x => cases hk : s.lowestKey <;> simp [completed, hk]
  | nop | cls | jp | jpV0 | ldImm | addImm | ldReg | orReg | andReg | xorReg => rfl
  | addReg | subReg | shr | subnReg | shl | rnd | drw | ldI | addI | ldF => rfl
  | ldVxDt | ldDtVx | ldStVx | ldB | storeRegs | loadRegs => rfl

/-- The entry `k` is in use and holds `w`. -/
abbrev State.Holds (k : Fin 16) (w : Word) (s : State) : Prop := s.stack[k.val] = w ∧ k.val < s.sp.val

/-- An instruction keeps an entry in use, unless it is the RET that pops it: CALL writes above it, and a RET of a higher
entry leaves it below `SP`. -/
theorem completed_holds {i : Instr} {s : State} {k : Fin 16} {w : Word} (hholds : s.Holds k w)
    (hnofault : faultOf i s = none) (hpop : i = .ret → s.sp.val ≠ k.val + 1) : (completed i s).Holds k w := by
  obtain ⟨hentry, hused⟩ := hholds
  have hlt := s.sp.isLt
  by_cases hret : i = .ret
  · have hne := hpop hret
    have hsp : (s.sp.val - 1) % 17 = s.sp.val - 1 := Nat.mod_eq_of_lt (by omega)
    subst hret
    exact ⟨hentry, by simp only [completed, Fin.val_ofNat, hsp]; omega⟩
  by_cases hcall : ∃ nnn, i = .call nnn
  · obtain ⟨nnn, rfl⟩ := hcall
    have hroom : s.sp.val ≠ 16 := fun hfull => by simp [faultOf, hfull] at hnofault
    have hsp : (s.sp.val + 1) % 17 = s.sp.val + 1 := Nat.mod_eq_of_lt (by omega)
    refine ⟨?_, by simp only [completed, Fin.val_ofNat, hsp]; omega⟩
    simp only [completed, Vector.getElem_setIfInBounds, if_neg hused.ne', hentry]
  · rw [not_exists] at hcall
    rw [State.Holds, completed_sp hcall hret]
    simp only [completed_stack hcall]
    exact ⟨hentry, hused⟩

/-- A step keeps an entry in use, unless it executes the RET that pops it. -/
theorem step_holds {s t : State} {k : Fin 16} {w : Word} (hholds : s.Holds k w) (hstep : step s = .next t)
    (hpop : ¬(s.Running ∧ s.Fetches .ret ∧ s.sp.val = k.val + 1)) : t.Holds k w := by
  refine step_induction (P := State.Holds k w) hholds (fun _ _ => hholds) ?_ hstep
  intro i hrunning hfetch hnofault
  refine completed_holds hholds hnofault fun hret hsp => hpop ⟨hrunning, ?_, hsp⟩
  exact hret ▸ hfetch

/-- Settles O60: `step_holds` for the word the entry holds before the step. -/
theorem stackEntriesInUseAreKeptUntilTheirReturn : Obligations.StackEntriesInUseAreKeptUntilTheirReturn :=
  fun _ _ _ hused hstep hpop => step_holds ⟨rfl, hused⟩ hstep hpop

/-! ### The round trip (R112) -/

/-- A run of an operation and more is the operation and then the rest. -/
theorem hostRun_cons_inv {op : HostOp} {ops : List HostOp} {s t : State} (hrun : hostRun (op :: ops) s = .next t) :
    ∃ u r, hostApply op s = .next (u, r) ∧ hostRun ops u = .next t := by
  obtain ⟨u, r, happly⟩ := hostApply_total op s
  rw [hostRun_cons happly] at hrun
  exact ⟨u, r, happly, hrun⟩

/-- No step of the run executes the RET that pops the entry `k`. -/
abbrev NeverPops (k : Fin 16) (ops : List HostOp) (t : State) : Prop :=
  ∀ before after v, ops = before ++ .step :: after → hostRun before t = .next v →
    ¬(v.Running ∧ v.Fetches .ret ∧ v.sp.val = k.val + 1)

theorem NeverPops.tail {k : Fin 16} {op : HostOp} {ops : List HostOp} {t u : State} {r : HostReply}
    (hnever : NeverPops k (op :: ops) t) (happly : hostApply op t = .next (u, r)) : NeverPops k ops u := by
  intro before after v heq hrun
  exact hnever (op :: before) after v (by rw [heq]; rfl) (by rw [hostRun_cons happly, hrun])

/-- An operation other than a reset keeps an entry in use, unless it is a step that executes the RET that pops it. -/
theorem hostApply_holds {op : HostOp} {s t : State} {r : HostReply} {k : Fin 16} {w : Word} (hholds : s.Holds k w)
    (hreset : op.isReset = false) (happly : hostApply op s = .next (t, r))
    (hpop : op = .step → ¬(s.Running ∧ s.Fetches .ret ∧ s.sp.val = k.val + 1)) : t.Holds k w := by
  cases op with
  | step => exact step_holds hholds (step_of_hostApply happly) (hpop rfl)
  | reset font tail => cases hreset
  | load rom =>
    cases happly
    unfold State.load
    split <;> exact hholds
  | tickTimers | setKey | clearKey | frameBuffer | status => cases happly; exact hholds

/-- A run without a reset keeps an entry in use until the RET that pops it. -/
theorem hostRun_holds {ops : List HostOp} {t u : State} {k : Fin 16} {w : Word} (hholds : t.Holds k w)
    (hreset : ∀ op ∈ ops, op.isReset = false) (hnever : NeverPops k ops t) (hrun : hostRun ops t = .next u) :
    u.Holds k w := by
  induction ops generalizing t with
  | nil => cases hrun; exact hholds
  | cons op ops ih =>
    obtain ⟨v, r, happly, hrest⟩ := hostRun_cons_inv hrun
    obtain ⟨hop, hops⟩ := List.forall_mem_cons.1 hreset
    refine ih (hostApply_holds hholds hop happly fun hstep => ?_) hops (hnever.tail happly) hrest
    exact hnever [] ops t (by rw [hstep]; rfl) rfl

/-- Settles O26: the CALL pushes the address after it, the run keeps that entry in use, and the RET pops it. -/
theorem returnComesBackAfterItsCall : Obligations.ReturnComesBackAfterItsCall := by
  intro s t u nnn ops hrunning hfetch hroom hstep hreset hnever hrun hurunning hufetch husp
  let k : Fin 16 := ⟨s.sp.val, hroom⟩
  have hpushed : t.Holds k (s.pc + 2) := by
    obtain ⟨t', hcall, -, hsp, hentries, -⟩ := (callPushesAndJumps nnn s).1 hroom
    rw [step_of_fetches hrunning hfetch, hcall] at hstep
    cases hstep
    refine ⟨(hentries k).trans (if_pos rfl), ?_⟩
    rw [hsp]
    exact Nat.lt_succ_self s.sp.val
  obtain ⟨hentry, -⟩ := hostRun_holds hpushed hreset hnever hrun
  obtain ⟨w, hret, hpc, hsp, -⟩ := (returnPopsIntoPc u).1 k husp
  exact ⟨w, (step_of_fetches hurunning hufetch).trans hret, hpc.trans hentry, Fin.ext hsp⟩

end Sys2Proof.Machine
end

section
/-! SUPPORT. The obligations about the flag-writing arithmetic (spec/41_alu.md): addition and subtraction (R128, R129,
R131), the shifts (R130, R132), and the random byte (R133). -/

namespace Sys2Proof.Machine

/-! ### A result and then a flag (R120) -/

/-- What an instruction does that writes `b` to `V[x]` and then the flag `f` to VF. -/
theorem exec_setReg_setFlag {i : Instr} {s : State} {x : Reg} {b f : Byte}
    (hexec : exec i s = .next ((s.advancePc.setReg x b).setReg Reg.vf f)) :
    ∃ t, exec i s = .next t ∧ (x ≠ Reg.vf → t.reg x = b) ∧ t.reg Reg.vf = f ∧ t.pc = s.pc + 2 ∧
      ChangesOnlyRegs [x, Reg.vf] s t := by
  refine ⟨_, hexec, fun hx => ?result, ?flag, rfl, ?frame⟩
  case result => rw [setReg_reg_ne hx, State.setReg_reg, if_pos rfl]
  case flag => rw [State.setReg_reg, if_pos rfl]
  case frame =>
    have hresult := changesOnlyRegs_setReg (changesOnlyRegs_advancePc [x, Reg.vf] s) List.mem_cons_self b
    exact changesOnlyRegs_setReg hresult (by simp) f

theorem sub_toNat_mod (a b : Byte) : (a - b).toNat = (a.toNat + 256 - b.toNat) % 256 := by
  have hb := b.isLt
  rw [BitVec.toNat_sub]
  congr 1
  omega

/-- Settles O30: each of the three writes its result modulo 256 and then its flag. -/
theorem addAndSubtractSetResultAndFlag : Obligations.AddAndSubtractSetResultAndFlag := by
  intro x y s
  refine ⟨?add, ?sub, ?subn⟩
  case add =>
    obtain ⟨t, hnext, hreg, hflag, hrest⟩ := exec_setReg_setFlag (exec_eq (.addReg x y) s)
    refine ⟨t, hnext, fun hx => ?_, ?_, hrest⟩
    · rw [hreg hx, BitVec.toNat_add]
    · rw [hflag, carryFlag_toNat]
  case sub =>
    obtain ⟨t, hnext, hreg, hflag, hrest⟩ := exec_setReg_setFlag (exec_eq (.subReg x y) s)
    refine ⟨t, hnext, fun hx => ?_, ?_, hrest⟩
    · rw [hreg hx, sub_toNat_mod]
    · rw [hflag, noBorrowFlag_toNat]
  case subn =>
    obtain ⟨t, hnext, hreg, hflag, hrest⟩ := exec_setReg_setFlag (exec_eq (.subnReg x y) s)
    refine ⟨t, hnext, fun hx => ?_, ?_, hrest⟩
    · rw [hreg hx, sub_toNat_mod]
    · rw [hflag, noBorrowFlag_toNat]

/-! ### A flag and then a shift in place (R130, R132) -/

/-- What an instruction does that writes the flag `f` to VF and then `shift` of the current `V[x]` to `V[x]`. -/
theorem exec_setFlag_shift {i : Instr} {s : State} {x : Reg} {f : Byte} {shift : Byte → Byte}
    (hexec : exec i s = .next ((s.advancePc.setReg Reg.vf f).setReg x (shift ((s.advancePc.setReg Reg.vf f).reg x)))) :
    ∃ t, exec i s = .next t ∧ (x ≠ Reg.vf → t.reg x = shift (s.reg x) ∧ t.reg Reg.vf = f) ∧
      (x = Reg.vf → t.reg Reg.vf = shift f) ∧ t.pc = s.pc + 2 ∧ ChangesOnlyRegs [x, Reg.vf] s t := by
  refine ⟨_, hexec, fun hx => ⟨?result, ?flag⟩, fun hx => ?both, rfl, ?frame⟩
  case result => rw [State.setReg_reg, if_pos rfl, setReg_reg_ne hx, State.advancePc_reg]
  case flag => rw [setReg_reg_ne (Ne.symm hx), State.setReg_reg, if_pos rfl]
  case both => rw [hx, State.setReg_reg, if_pos rfl, State.setReg_reg, if_pos rfl]
  case frame =>
    have hflag := changesOnlyRegs_setReg (changesOnlyRegs_advancePc [x, Reg.vf] s) (x := Reg.vf) (by simp) f
    exact changesOnlyRegs_setReg hflag List.mem_cons_self _

theorem halve_toNat (a : Byte) : (BitVec.ofNat 8 (a.toNat / 2)).toNat = a.toNat / 2 := by
  have ha := a.isLt
  rw [BitVec.toNat_ofNat]
  omega

theorem double_toNat (a : Byte) : (BitVec.ofNat 8 (a.toNat * 2)).toNat = a.toNat * 2 % 256 :=
  BitVec.toNat_ofNat _ _

/-- Settles O31: each of the two writes the bit shifted out and then shifts the current value, which with x = 0xF is
that bit. -/
theorem shiftsMoveOneBit : Obligations.ShiftsMoveOneBit := by
  intro x y s
  refine ⟨?shr, ?shl⟩
  case shr =>
    refine (exec_setFlag_shift (shift := fun a => BitVec.ofNat 8 (a.toNat / 2)) (exec_eq (.shr x y) s)).imp
      fun t ⟨hnext, hreg, hvf, hrest⟩ => ⟨hnext, fun hx => ?_, fun hx => ?_, hrest⟩
    · obtain ⟨hresult, hflag⟩ := hreg hx
      rw [hresult, hflag, halve_toNat, lowBitFlag_toNat]
      exact ⟨rfl, rfl⟩
    · rw [hvf hx, lowBitFlag_toNat, Nat.div_eq_of_lt (Nat.mod_lt _ (by decide))]
      rfl
  case shl =>
    refine (exec_setFlag_shift (shift := fun a => BitVec.ofNat 8 (a.toNat * 2)) (exec_eq (.shl x y) s)).imp
      fun t ⟨hnext, hreg, hvf, hrest⟩ => ⟨hnext, fun hx => ?_, fun hx => ?_, hrest⟩
    · obtain ⟨hresult, hflag⟩ := hreg hx
      rw [hresult, hflag, double_toNat, highBitFlag_toNat]
      exact ⟨rfl, rfl⟩
    · have hbyte := (s.reg x).isLt
      rw [hvf hx, double_toNat, highBitFlag_toNat]
      omega

/-! ### The random byte (R133) -/

/-- Settles O32: RND takes a draw and writes its byte, masked, to `V[x]`. -/
theorem randomMasksAFreshDraw : Obligations.RandomMasksAFreshDraw := by
  intro x kk s
  refine ⟨_, exec_eq (.rnd x kk) s, ?byte, rfl, rfl, fun r hr => ?kept, rfl, fun _ => rfl, ⟨rfl, rfl⟩, ⟨rfl, rfl⟩, rfl,
    rfl, rfl⟩
  case byte => rw [completed, State.setReg_reg, if_pos rfl]
  case kept => exact setReg_reg_ne (List.ne_of_not_mem_cons hr) _ _

end Sys2Proof.Machine
end

section
/-! SUPPORT. The obligations about the memory transfers (spec/42_index_memory.md R143-R145) and the code they store
(spec/20_memory.md R65). -/

namespace Sys2Proof.Machine

/-! ### Storing bytes at `I` -/

theorem changesOnlyMemory_advancePc_writeSeq (s : State) (base : Nat) (bs : List Byte) :
    ChangesOnlyMemory base bs.length s { s.advancePc with mem := s.mem.writeSeq base bs } :=
  ⟨fun _ _ => rfl, rfl, fun _ ha => Memory.read_writeSeq_outside ha, ⟨rfl, rfl⟩, ⟨rfl, rfl⟩, rfl, ⟨rfl, rfl, rfl⟩⟩

/-- An access of one byte and `n` more that leaves memory faults at its first address above 0xFFF. -/
theorem accessFault_succ_some {base n : Nat} (hout : base + n > 0xFFF) :
    accessFault base (n + 1) = some (.memoryOutOfRange (max base 0x1000)) :=
  accessFault_some ⟨Nat.succ_ne_zero n, by omega⟩

/-- An access of one byte and `n` more inside memory raises no fault. -/
theorem accessFault_succ_none {base n : Nat} (hin : base + n ≤ 0xFFF) : accessFault base (n + 1) = none :=
  accessFault_none.2 (.inr (by omega))

theorem decimalDigits_map_toNat (a : Byte) :
    (decimalDigits a).map BitVec.toNat = [a.toNat / 100, a.toNat / 10 % 10, a.toNat % 10] := by
  have ha := a.isLt
  simp only [decimalDigits, List.map_cons, List.map_nil, BitVec.toNat_ofNat, List.cons.injEq, and_true]
  omega

/-- The digits stored are what memory reads at `I` and up (R143). -/
theorem completed_ldB_read {j : Nat} (hj : j < 3) (x : Reg) (s : State) :
    ((completed (.ldB x) s).mem.read (s.i.toNat + j)).toNat =
      [(s.reg x).toNat / 100, (s.reg x).toNat / 10 % 10, (s.reg x).toNat % 10].getD j 0 := by
  rw [← decimalDigits_map_toNat]
  exact (congrArg BitVec.toNat (Memory.read_writeSeq_add hj)).trans (List.getD_map _ _ _).symm

/-- Settles O34: three digits are written in order from `I` up, or the access leaves memory. -/
theorem decimalDigitsAreStored : Obligations.DecimalDigitsAreStored := by
  refine fun x s => ⟨fun hin => ?inside, fun hout => exec_of_faultOf (accessFault_succ_some hout)⟩
  case inside =>
    exact ⟨_, exec_of_noFault (accessFault_succ_none hin), completed_ldB_read (j := 0) (by decide) x s,
      completed_ldB_read (j := 1) (by decide) x s, completed_ldB_read (j := 2) (by decide) x s, rfl,
      changesOnlyMemory_advancePc_writeSeq s _ _⟩

/-- The registers stored are what memory reads at `I` and up (R144). -/
theorem completed_storeRegs_read {x k : Reg} (hk : k ≤ x) (s : State) :
    (completed (.storeRegs x) s).mem.read (s.i.toNat + k.val) = s.reg k := by
  have hlt : k.val < (s.regsUpTo x).length := by rw [State.regsUpTo_length]; exact Nat.lt_succ_of_le hk
  exact (Memory.read_writeSeq_add hlt).trans (State.regsUpTo_getD s hk)

/-- Settles O35: `V[0..x]` are written in order from `I` up, or the access leaves memory. -/
theorem registersAreStored : Obligations.RegistersAreStored := by
  refine fun x s => ⟨fun hin => ?inside, fun hout => exec_of_faultOf (accessFault_succ_some hout)⟩
  case inside =>
    have hframe := changesOnlyMemory_advancePc_writeSeq s s.i.toNat (s.regsUpTo x)
    rw [State.regsUpTo_length] at hframe
    exact ⟨_, exec_of_noFault (accessFault_succ_none hin), fun k hk => completed_storeRegs_read hk s, rfl, hframe⟩

/-- Settles O36: the bytes from `I` up are read into `V[0..x]`, or the access leaves memory. -/
theorem registersAreLoaded : Obligations.RegistersAreLoaded := by
  refine fun x s => ⟨fun hin => ?inside, fun hout => exec_of_faultOf (accessFault_succ_some hout)⟩
  case inside =>
    refine ⟨_, exec_of_noFault (accessFault_succ_none hin), fun k hk => ?loaded, fun k hk => ?above, rfl, rfl,
      fun _ => rfl, ⟨rfl, rfl⟩, ⟨rfl, rfl⟩, rfl, ⟨rfl, rfl, rfl⟩⟩
    case loaded => rw [completed_loadRegs_reg, if_pos hk]
    case above => rw [completed_loadRegs_reg, if_neg (Fin.not_le.2 hk)]

/-! ### Stored code (R65) -/

/-- Settles O37: `pc` ends at `I`, where the word is `V[0]` high and `V[1]` low. -/
theorem storedCodeRunsAtOnce : Obligations.StoredCodeRunsAtOnce := by
  intro x s t i hrunning hx hin hnext hdecode hexec
  rw [exec_of_noFault (i := .storeRegs x) (accessFault_succ_none hin)] at hexec
  cases hexec
  have hpc : (completed (.storeRegs x) s).pc = s.i := hnext
  have hword : (completed (.storeRegs x) s).wordAtPc = wordOfBytes (s.reg 0) (s.reg 1) := by
    rw [State.wordAtPc, hpc]
    exact congrArg₂ wordOfBytes (completed_storeRegs_read (Fin.zero_le x) s)
      (completed_storeRegs_read (k := 1) (Fin.le_def.2 hx) s)
  refine step_of_fetches ((completed_keys_halted _ s).2.trans hrunning) ⟨?_, hword ▸ hdecode⟩
  rw [hpc]
  omega

end Sys2Proof.Machine
end

section
/-! SUPPORT. The obligations about what DRW draws (spec/43_display.md R160, R162) and about drawing twice (R164). -/

namespace Sys2Proof.Machine

/-! ### One draw (R160, R162) -/

theorem changesOnlyScreen_completed_drw (x y : Reg) (n : Nat) (s : State) :
    ChangesOnlyScreen [Reg.vf] s (completed (.drw x y n) s) :=
  ⟨fun _ hr => setReg_reg_ne (List.ne_of_not_mem_cons hr) _ _, rfl, fun _ => rfl, ⟨rfl, rfl⟩, ⟨rfl, rfl⟩,
    rfl, rfl, rfl⟩

/-- Settles O39: a draw toggles the cells its sprite covers and then writes VF, or the access leaves memory. -/
theorem drawTogglesTheCoveredCells : Obligations.DrawTogglesTheCoveredCells := by
  refine fun x y n s hn => ⟨fun hin => ?inside, fun hout => exec_of_faultOf (accessFault_some hout)⟩
  case inside =>
    exact ⟨_, exec_drw_completed hin x y, drawn_cell (by omega) x y s, rfl, changesOnlyScreen_completed_drw x y n s⟩

/-! ### Two draws (R164) -/

/-- Which cells a sprite covers depends on its bytes and its origin alone. -/
theorem spriteCovers_congr {m m' : Memory} {base base' n : Nat}
    (hbytes : ∀ k, k < n → m'.read (base' + k) = m.read (base + k)) (cx cy : Nat) (row : Fin 32) (col : Fin 64) :
    SpriteCovers m' base' n cx cy row col ↔ SpriteCovers m base n cx cy row col :=
  exists_congr fun k => and_congr_right fun hk => by rw [hbytes k hk]

theorem flagByte_eq_one_iff (c : Bool) : flagByte c = 1 ↔ c = true := by
  cases c <;> decide

/-- A cell that a draw turns off was turned on before, where two draws cancel. -/
theorem toggled_and_lit_iff (before between : Bool) :
    (before ≠ between ∧ between = true) ↔ (before = false ∧ between = true) := by
  cases before <;> cases between <;> decide

section TwoDraws

variable {x y x' y' : Reg} {n : Nat} {s s' : State} (hn : n ≤ 32)
  (hfb : s'.fb = (drawn x y n s).fb) (hx : s'.reg x' = s.reg x) (hy : s'.reg y' = s.reg y)
  (hbytes : ∀ k, k < n → s'.mem.read (s'.i.toNat + k) = s.mem.read (s.i.toNat + k))
include hn hfb hx hy hbytes

/-- The second of two draws of one sprite toggles the cells of the first back. -/
theorem drawn_drawn_fb : (drawn x' y' n s').fb = s.fb := by
  refine FrameBuffer.ext_cell fun row col => ?_
  obtain ⟨htoggled, hkept⟩ := drawn_cell hn x y s row col
  obtain ⟨htoggled', hkept'⟩ := drawn_cell hn x' y' s' row col
  rw [hx, hy, spriteCovers_congr hbytes, hfb] at htoggled' hkept'
  by_cases hcovers : SpriteCovers s.mem s.i.toNat n (s.reg x).toNat (s.reg y).toNat row col
  · rw [htoggled' hcovers, htoggled hcovers, Bool.not_not]
  · rw [hkept' hcovers, hkept hcovers]

/-- The second of two draws of one sprite collides exactly when the first turned a cell on. -/
theorem drawn_drawn_collision :
    (drawn x' y' n s').collision = true ↔ ∃ (row : Fin 32) (col : Fin 64),
      s.fb.cell row col = false ∧ (drawn x y n s).fb.cell row col = true := by
  rw [drawn_collision hn, drawn_drawn_fb hn hfb hx hy hbytes, hfb]
  simp only [toggled_and_lit_iff]

end TwoDraws

/-- Settles O41: the second draw completes, with the screen and the collision of `drawn_drawn_fb` and
`drawn_drawn_collision`. -/
theorem drawingTwiceRestoresTheScreen : Obligations.DrawingTwiceRestoresTheScreen := by
  intro x y x' y' n s t s' hn hin hexec hfb hx hy hin' hbytes
  rw [exec_drw_completed hin] at hexec
  cases hexec
  have hn32 : n ≤ 32 := by omega
  refine ⟨_, exec_drw_completed hin' x' y', drawn_drawn_fb hn32 hfb hx hy hbytes, ?flag⟩
  case flag =>
    rw [completed_drw_vf, flagByte_eq_one_iff]
    exact drawn_drawn_collision hn32 hfb hx hy hbytes

end Sys2Proof.Machine
end

section
/-! SUPPORT. The obligations about the keys (spec/44_timers_keys.md R170-R172, R174): the key skips, and a key wait
that stalls. -/

namespace Sys2Proof.Machine

/-- Settles O42: for a key there is, each of the two completes with a skip on it; for one there is not, both take the
fault. -/
theorem keySkipsMovePc : Obligations.KeySkipsMovePc := by
  refine fun x s => ⟨fun k hk => ⟨?skp, ?sknp⟩, fun hout => ⟨?skpFault, ?sknpFault⟩⟩
  case skp =>
    have hexec : exec (.skp x) s = _ := execSkp_ok (by omega)
    simpa only [hk] using exec_skipIf_pc hexec
  case sknp =>
    have hexec : exec (.sknp x) s = _ := execSknp_ok (by omega)
    simpa only [hk, Bool.not_eq_true', Bool.eq_false_iff, ne_eq, ite_not] using exec_skipIf_pc hexec
  case skpFault => exact exec_of_faultOf (if_pos hout)
  case sknpFault => exact exec_of_faultOf (if_pos hout)

/-- Settles O44: a key wait with no key pressed leaves the state as it is. -/
theorem keyWaitStallsUntilAKey : Obligations.KeyWaitStallsUntilAKey := fun _ _ n hrunning hfetch hnokey =>
  steps_of_fixed ((step_of_fetches hrunning hfetch).trans (execLdVxK_none hnokey)) n

end Sys2Proof.Machine
end

section
/-! SUPPORT. The obligations about the host's operations (spec/60_exceptions.md R204, R214-R216;
spec/70_reset_and_hazards.md R232): the keys, a ROM that is too large, the observations, and what a halted core keeps
until a reset. -/

namespace Sys2Proof.Machine

/-! ### Keys, loads and observations -/

/-- A key above 0xF is no key of the machine (R214). -/
theorem writeKey_of_le {k : Nat} (hk : 16 ≤ k) (s : State) (b : Bool) : s.writeKey k b = s := by
  rw [State.writeKey, Vector.setIfInBounds_eq_of_size_le hk]

theorem writeKey_getElem (s : State) (k : Nat) (b : Bool) (j : Fin 16) :
    (s.writeKey k b).keys[j.val] = if j.val = k then b else s.keys[j.val] := by
  simp only [State.writeKey_keys, Vector.getElem_setIfInBounds, eq_comm]

/-- Settles O55: a key up to 0xF is written and one above it is not. -/
theorem keyOperationsSetOneKey : Obligations.KeyOperationsSetOneKey := by
  refine fun s k => ⟨fun hk => ?key, fun hk => ?none⟩
  case key =>
    have hreply : keyReply k = .done := if_pos hk
    refine ⟨s.writeKey k true, s.writeKey k false, ?_, ?_, writeKey_getElem s k true, writeKey_getElem s k false, rfl,
      rfl⟩
    · rw [hostApply, hreply]
    · rw [hostApply, hreply]
  case none =>
    have hreply : keyReply k = .keyRefused := if_neg (Nat.not_lt.2 hk)
    exact ⟨by rw [hostApply, hreply, writeKey_of_le hk], by rw [hostApply, hreply, writeKey_of_le hk]⟩

/-- Settles O57: a ROM that does not fit fails the check of a load. -/
theorem loadTooLargeWritesNothing : Obligations.LoadTooLargeWritesNothing := by
  intro s rom hlarge
  have hfits : loadFits rom = false := decide_eq_false (Nat.not_le.2 hlarge)
  simp only [hostApply, State.load, loadReply, hfits, Bool.false_eq_true, if_false]

/-- Settles O58: both operations answer the state they are applied to. -/
theorem observationsChangeNothing : Obligations.ObservationsChangeNothing :=
  fun _ => ⟨rfl, rfl⟩

/-! ### A halted core (R204) -/

/-- What a halted core keeps until a reset. -/
abbrev StaysHalted (r : FaultRecord) (s t : State) : Prop :=
  t.halted = some r ∧ KeepsRegsBut [] s t ∧ t.i = s.i ∧ t.pc = s.pc ∧ KeepsStack s t ∧ t.fb = s.fb ∧ t.draws = s.draws

/-- An operation other than a reset moves at most the timers, the keys and memory of a halted core. -/
theorem hostApply_staysHalted {op : HostOp} {r : FaultRecord} {s u v : State} {reply : HostReply}
    (hstays : StaysHalted r s u) (hreset : op.isReset = false) (happly : hostApply op u = .next (v, reply)) :
    StaysHalted r s v := by
  cases op with
  | step =>
    have hstep := step_of_hostApply happly
    rw [step_halted hstays.1] at hstep
    cases hstep
    exact hstays
  | reset font tail => cases hreset
  | load rom =>
    cases happly
    unfold State.load
    split <;> exact hstays
  | tickTimers | setKey | clearKey | frameBuffer | status => cases happly; exact hstays

theorem hostRun_staysHalted {ops : List HostOp} {r : FaultRecord} {s u t : State} (hstays : StaysHalted r s u)
    (hreset : ∀ op ∈ ops, op.isReset = false) (hrun : hostRun ops u = .next t) : StaysHalted r s t := by
  induction ops generalizing u with
  | nil => cases hrun; exact hstays
  | cons op ops ih =>
    obtain ⟨v, reply, happly, hrest⟩ := hostRun_cons_inv hrun
    obtain ⟨hop, hops⟩ := List.forall_mem_cons.1 hreset
    exact ih (hostApply_staysHalted hstays hop happly) hops hrest

/-- Settles O17: a step of a halted core does nothing, and a run without a reset keeps it halted. -/
theorem haltedUntilReset : Obligations.HaltedUntilReset :=
  ⟨fun _ _ => step_halted, fun _ _ _ _ hreset hhalted hrun =>
    hostRun_staysHalted ⟨hhalted, fun _ _ => rfl, rfl, rfl, ⟨rfl, rfl⟩, rfl, rfl⟩ hreset hrun⟩

end Sys2Proof.Machine
end
